-- ==== Sys2Proof/Word.lean ====
section
/-! DEFINITION. The bit-vector types of STEGO-CORE (spec/00_scope.md R7, R13). -/

namespace Sys2Proof

/-- One bit: an operand `d` or `v` (R76), an element of a bit sequence (R14), a carrier bit (R132). -/
abbrev Bit := BitVec 1

/-- A byte, `b[7]` the most significant bit (R13). -/
abbrev Byte := BitVec 8

/-- A 32-bit word: a command word (R70), a pixel value (R7), RES and RES2 (R22). -/
abbrev Word := BitVec 32

end Sys2Proof
end

