-- ==== Sys2Proof/Syntax.lean ====
section
/-! DEFINITION. The commands of STEGO-CORE: one constructor per row of spec/opcode_table.json
(spec/30_encoding.md R71). -/

namespace Sys2Proof

/-- A command with its operands (R71, R73 to R77). No command takes a register operand. -/
inductive Instr where
  /-- CRYPT d: direction 0 = MSG to STR, 1 = STR to MSG (R76, R101). -/
  | crypt (d : Bit)
  /-- XORB idx, b: `idx` is a byte index of 20 bits (R74, R102). -/
  | xorb (idx : Nat) (b : Byte)
  /-- TOBITS b (R75, R112). -/
  | tobits (b : Byte)
  /-- FROMBITS (R113). -/
  | frombits
  /-- FRAME (R122). -/
  | frame
  /-- DETECT (R123). -/
  | detect
  /-- CAPCHK (R140). -/
  | capchk
  /-- WRBIT v (R76, R141). -/
  | wrbit (v : Bit)
  /-- RDBIT (R142). -/
  | rdbit
  /-- MAP (R143). -/
  | map
  /-- HIDE (R150). -/
  | hide
  /-- SHOW (R160); `show` is a word of Lean, so the constructor is `showCmd`. -/
  | showCmd
  deriving DecidableEq, Repr

end Sys2Proof
end

