-- ==== Sys2Proof/WellFormed.lean ====
section
/-! DEFINITION. When a command's operands fit the fields of its format (spec/30_encoding.md R72, R74, R81). -/

namespace Sys2Proof

/-- The operands are within the ranges of R81. Only XORB's index can be out of range: every other operand's
type is its field. -/
def Instr.WellFormed : Instr → Bool
  | .crypt _ => true
  | .xorb idx _ => idx < 2 ^ 20
  | .tobits _ => true
  | .frombits => true
  | .frame => true
  | .detect => true
  | .capchk => true
  | .wrbit _ => true
  | .rdbit => true
  | .map => true
  | .hide => true
  | .showCmd => true

end Sys2Proof
end

