-- ==== Sys2Proof/Decode.lean ====
section
/-! DEFINITION. The decoder and the encoder of command words (spec/30_encoding.md R70 to R80). -/

namespace Sys2Proof

/-- Why a word is no command (R78, R79). -/
inductive DecodeError where
  /-- OPC is 0x0, 0xD, 0xE or 0xF. -/
  | unassignedOpcode (opc : Nat)
  /-- OPC is assigned and a reserved bit of its format is 1. -/
  | reservedBitSet (opc : Nat)
  deriving DecidableEq, Repr

/-- `OPC = w[31:28]` (R70). -/
def opcOf (w : Word) : BitVec 4 := w.extractLsb' 28 4

/-- `w[27:0]`, the reserved bits of format N (R72). -/
def reservedN (w : Word) : BitVec 28 := w.extractLsb' 0 28

/-- `w[27:1]`, the reserved bits of format F1 (R72). -/
def reservedF1 (w : Word) : BitVec 27 := w.extractLsb' 1 27

/-- `w[27:8]`: the reserved bits of format B and the field `idx` of format XB (R72). -/
def field27to8 (w : Word) : BitVec 20 := w.extractLsb' 8 20

/-- `w[7:0]`, the field `b` of formats B and XB (R74, R75). -/
def byteField (w : Word) : Byte := w.extractLsb' 0 8

/-- `w[0]`, the operand of format F1 (R76). -/
def bitField (w : Word) : Bit := w.extractLsb' 0 1

/-- A command whose reserved bits are `reserved`: illegal unless they are all 0 (R78). -/
def withReserved {n : Nat} (reserved : BitVec n) (opc : Nat) (i : Instr) : Except DecodeError Instr :=
  if reserved = 0 then .ok i else .error (.reservedBitSet opc)

/-- The decoder, `decode(w)` of R79. It is total: every word is one command or illegal by name (R80). -/
def decode (w : Word) : Except DecodeError Instr :=
  match (opcOf w).toNat with
  | 0x1 => withReserved (reservedF1 w) 0x1 (.crypt (bitField w))
  | 0x2 => .ok (.xorb (field27to8 w).toNat (byteField w))
  | 0x3 => withReserved (field27to8 w) 0x3 (.tobits (byteField w))
  | 0x4 => withReserved (reservedN w) 0x4 .frombits
  | 0x5 => withReserved (reservedN w) 0x5 .frame
  | 0x6 => withReserved (reservedN w) 0x6 .detect
  | 0x7 => withReserved (reservedN w) 0x7 .capchk
  | 0x8 => withReserved (reservedF1 w) 0x8 (.wrbit (bitField w))
  | 0x9 => withReserved (reservedN w) 0x9 .rdbit
  | 0xA => withReserved (reservedN w) 0xA .map
  | 0xB => withReserved (reservedN w) 0xB .hide
  | 0xC => withReserved (reservedN w) 0xC .showCmd
  | opc => .error (.unassignedOpcode opc)

/-- Format N: OPC in [31:28], every other bit 0 (R72). -/
def formatN (opc : BitVec 4) : Word := opc ++ 0#28

/-- Format F1: OPC, 27 zero bits, the one-bit operand (R72). -/
def formatF1 (opc : BitVec 4) (v : Bit) : Word := opc ++ 0#27 ++ v

/-- Format B: OPC, 20 zero bits, the byte (R72). -/
def formatB (opc : BitVec 4) (b : Byte) : Word := opc ++ 0#20 ++ b

/-- Format XB: OPC, the 20-bit index, the byte (R72). -/
def formatXB (opc : BitVec 4) (idx : BitVec 20) (b : Byte) : Word := opc ++ idx ++ b

/-- The word of a command, from the opcode map (R71) and the formats (R72). Only the word of a well-formed
command means anything: an index of more than 20 bits has no word (R81). -/
def encode : Instr → Word
  | .crypt d => formatF1 0x1#4 d
  | .xorb idx b => formatXB 0x2#4 (BitVec.ofNat 20 idx) b
  | .tobits b => formatB 0x3#4 b
  | .frombits => formatN 0x4#4
  | .frame => formatN 0x5#4
  | .detect => formatN 0x6#4
  | .capchk => formatN 0x7#4
  | .wrbit v => formatF1 0x8#4 v
  | .rdbit => formatN 0x9#4
  | .map => formatN 0xA#4
  | .hide => formatN 0xB#4
  | .showCmd => formatN 0xC#4

/-- The command the decoder reads from the bits `w` of an opcode-table row of `nbits` bits; the bits above
`nbits` are 0, and a command has 32 bits and no more (R70). -/
def decodeTableWord (nbits w : Nat) : Option Instr :=
  if nbits ≤ 32 then
    match decode (BitVec.ofNat 32 (w % 2 ^ nbits)) with
    | .ok i => some i
    | .error _ => none
  else none

end Sys2Proof
end

