-- ==== Sys2Proof/Config.lean ====
section
/-! DEFINITION. The implementation parameters of STEGO-CORE and the model's one free value
(spec/00_scope.md R10 to R12). -/

namespace Sys2Proof

/-- The named parameters of R10. `PIX_CAP` is determined by `MAX_W` and `MAX_H`, so it is `Config.pixCap`. -/
structure Config where
  /-- MAX_W, the largest legal WIDTH. -/
  maxW : Nat
  /-- MAX_H, the largest legal HEIGHT. -/
  maxH : Nat
  /-- KEY_CAP, the number of bytes in KEY. -/
  keyCap : Nat
  /-- MSG_CAP, the number of bytes in MSG. -/
  msgCap : Nat
  /-- STR_CAP, the number of bytes in STR. -/
  strCap : Nat
  deriving DecidableEq, Repr

/-- PIX_CAP, the number of words in PIX: `MAX_W * MAX_H` (R10). -/
def Config.pixCap (c : Config) : Nat := c.maxW * c.maxH

/-- The constraints R10 and R11 put on the parameters. -/
abbrev Config.Conforming (c : Config) : Prop :=
  1 ≤ c.maxW ∧ 1 ≤ c.maxH ∧ c.msgCap + 3 ≤ c.strCap ∧ c.pixCap / 8 ≤ c.strCap ∧
    c.pixCap < 2 ^ 32 ∧ 8 * c.strCap < 2 ^ 32

/-- The reference configuration of R12: an example, no property of the block. -/
def Config.reference : Config :=
  { maxW := 128, maxH := 128, keyCap := 16, msgCap := 64, strCap := 2048 }

/-- FREE VALUE (log entry 7, DESIGN CHOICE, safe): the 32-bit reading of a number that does not fit 32 bits,
where the spec states none. No body: nothing can evaluate it or prove a value of it. -/
opaque Config.freeWord : Nat → Word

end Sys2Proof
end

