-- ==== Sys2Proof/Machine/State.lean ====
section
/-! DEFINITION. The state of STEGO-CORE as plain data, the reasons a step can stop, and the state after reset
(spec/10_state.md; spec/20_memory.md; spec/60_exceptions.md R170 to R172, R184, R185). -/

namespace Sys2Proof.Machine

/-- The four memories (10_state.md R29). -/
inductive MemId where
  | key
  | msg
  | str
  | pix
  deriving DecidableEq, Repr

/-- The outcome codes of STATUS.ERR (60_exceptions.md R170); 6 and 7 are never written, so they are no values. -/
inductive ErrCode where
  /-- 0: the command completed. -/
  | none
  /-- 1: more carrier bits needed than the grid has, or POS beyond the grid. -/
  | capacity
  /-- 2: the image ran out before a marker was found. -/
  | noframe
  /-- 3: FROMBITS without eight bits, or RDBIT with eight. -/
  | bitcount
  /-- 4: a byte buffer would exceed its capacity. -/
  | overflow
  /-- 5: the word is no command. -/
  | illegal
  deriving DecidableEq, Repr

/-- The registers of 10_state.md R22. -/
inductive RegId where
  | cmd
  | status
  | width
  | height
  | klen
  | mlen
  | slen
  | pos
  | bvr
  | res
  | res2
  deriving DecidableEq, Repr

/-- What the host sends: one operation is one step (60_exceptions.md R184). Indices and values are plain numbers,
so that a protocol violation (R185) can be sent and is refused. -/
inductive HostOp where
  /-- RegWrite(r, v); at index 0x0, CMD, it issues the command word v. -/
  | regWrite (r : Nat) (v : Nat)
  /-- RegRead(r). -/
  | regRead (r : Nat)
  /-- MemWrite(M, i, v). -/
  | memWrite (m : MemId) (i : Nat) (v : Nat)
  /-- MemRead(M, i). -/
  | memRead (m : MemId) (i : Nat)
  /-- Reset (70_reset_and_hazards.md R190). -/
  | reset
  deriving DecidableEq, Repr

/-- A memory of elements of `w` bits: (index, element) pairs, indices strictly rising (`Memory.wf`).
An element is marked written (10_state.md R32) exactly when it is listed. A byte memory is a list of `Host.Cell`. -/
abbrev Memory (w : Nat) := List (Nat × BitVec w)

/-- The machine. Every register, flag and memory of spec/10_state.md, the fault mark of R32, and the model's own
`cfg`, `inbox` and `outbox` (log entries 1 and 2). -/
structure State where
  /-- The implementation parameters (00_scope.md R10); no step changes them. -/
  cfg : Config
  /-- STATUS.ERR (R23). -/
  err : ErrCode
  /-- STATUS.DET (R23). -/
  det : Bool
  /-- WIDTH (R25). -/
  width : Nat
  /-- HEIGHT (R25). -/
  height : Nat
  /-- KLEN (R26). -/
  klen : Nat
  /-- MLEN (R26). -/
  mlen : Nat
  /-- SLEN (R26). -/
  slen : Nat
  /-- POS (R25). -/
  pos : Nat
  /-- BV, bits [7:0] of BVR (R22, R27). -/
  bv : Byte
  /-- BVLEN, bits [11:8] of BVR (R22, R27). -/
  bvlen : Nat
  /-- RES (R28). -/
  res : Word
  /-- RES2 (R28). -/
  res2 : Word
  /-- KEY (R29). -/
  key : Memory 8
  /-- MSG (R29). -/
  msg : Memory 8
  /-- STR (R29). -/
  str : Memory 8
  /-- PIX (R29). -/
  pix : Memory 32
  /-- The fault mark (R32). -/
  faultMark : Bool
  /-- The host's operations that have not happened yet, the next one first. -/
  inbox : List HostOp
  /-- What host reads got back, the newest first. -/
  outbox : List Word
  deriving DecidableEq, Repr

/-- Why a step stops with a fault. -/
inductive Fault where
  /-- The model fault `Unwritten(M, i)` (20_memory.md R53): raised by a command's or the host's read of an element
  nothing has written since reset. SAFE: the hardware would read some value and go on. -/
  | unwritten (m : MemId) (i : Nat)
  /-- A command reached an index at or above the memory's capacity, which 20_memory.md R52 says cannot occur:
  raised by a command's element access. SAFE: no such element exists (log entry 8). -/
  | noSuchElement (m : MemId) (i : Nat)
  /-- The fault mark is set, and the next operation is not Reset: raised by step (60_exceptions.md R172, R187).
  SAFE: a faulted state is never a final state of a run (log entry 4). -/
  | faultMarked
  deriving DecidableEq, Repr

/-- Why a step has no meaning: the host protocol violations of 60_exceptions.md R185. Every one is raised by the
host ports and is SAFE: the hardware gives the operation no meaning. -/
inductive Refusal where
  /-- A command with no meaning in the model; raised by exec's refused arms alone (SAFE). No arm uses it. -/
  | notModelled (mnemonic : String)
  /-- RegWrite to STATUS, BVR, RES or RES2. -/
  | readOnlyRegister (r : Nat)
  /-- RegWrite to or RegRead of an index 0xB or above. -/
  | unassignedRegister (r : Nat)
  /-- RegRead of CMD. -/
  | readOfCmd
  /-- RegWrite of a value outside the register's legal values. -/
  | registerValueOutOfRange (r : Nat) (v : Nat)
  /-- A host memory access at or above the memory's capacity. -/
  | memoryIndexOutOfRange (m : MemId) (i : Nat)
  /-- A host memory write of a value wider than the memory's element. -/
  | memoryValueOutOfRange (m : MemId) (v : Nat)
  deriving DecidableEq, Repr

/-- The state after reset of a block with parameters `c` (10_state.md R34): every register 0, every memory element
unwritten, the fault mark clear, and no host operation pending. -/
def State.resetOf (c : Config) : State :=
  { cfg := c, err := .none, det := false, width := 0, height := 0, klen := 0, mlen := 0, slen := 0, pos := 0,
    bv := 0x00#8, bvlen := 0, res := 0x00000000#32, res2 := 0x00000000#32,
    key := [], msg := [], str := [], pix := [], faultMark := false, inbox := [], outbox := [] }

/-- The state after reset of a block in the reference configuration of 00_scope.md R12 (log entry 1). -/
def State.reset : State := State.resetOf Config.reference

end Sys2Proof.Machine
end

