-- ==== Sys2Proof/Machine/Operands.lean ====
section
/-! DEFINITION. The pure functions of spec/00_scope.md R17, each as its family file defines it, and the numbers
and bits the commands compute with. -/

namespace Sys2Proof.Machine

/-- `zext_32` of a byte (R13). -/
def zextByte (b : Byte) : Word := b.zeroExtend 32

/-- `zext_32` of a bit (R13). -/
def zextBit (v : Bit) : Word := v.zeroExtend 32

/-- A number as a 32-bit word. In a conforming configuration every number a command writes to RES or RES2 fits
(00_scope.md R11); the reading of one that does not fit is free (log entry 7). -/
def wordOf (n : Nat) : Word := if n < 2 ^ 32 then BitVec.ofNat 32 n else Config.freeWord n

/-- `EOM`, the 3-byte end-of-message marker (R7). -/
def eom : List Byte := [0x00#8, 0x00#8, 0x03#8]

/-- `crypt(data, key)` (R100): the repeating-key XOR stream cipher, the identity for an empty key. -/
def crypt (data key : List Byte) : List Byte :=
  data.mapIdx fun i x => if key.length = 0 then x else x ^^^ key.getD (i % key.length) 0x00#8

/-- `toBits(b)` (R110): the eight bits, most significant first. -/
def toBits (b : Byte) : List Bit :=
  [7, 6, 5, 4, 3, 2, 1, 0].map fun k => b.extractLsb' k 1

/-- The accumulation of R111: `acc = (acc << 1) + s_j` from the first bit on. -/
def accumulateBits (s : List Bit) : Nat := s.foldl (fun acc v => acc * 2 + v.toNat) 0

/-- `fromBits(s)` (R111), defined on sequences of exactly 8 bits; the block never uses it on another (R113, R160). -/
def fromBits (s : List Bit) : Byte := BitVec.ofNat 8 (accumulateBits s)

/-- `frame(s) = s ++ EOM` (R120). -/
def frame (s : List Byte) : List Byte := s ++ eom

/-- `eomAt(s)` (R121): the last three bytes are the marker, compared in order. -/
def eomAt (s : List Byte) : Bool := decide (3 ≤ s.length) && s.drop (s.length - 3) == eom

/-- `capOk(nbytes, W, H)` (R130). -/
def capOk (nbytes w h : Nat) : Bool := nbytes * 8 ≤ w * h

/-- `writeBit(c, v)` (R131). -/
def writeBit (c : Word) (v : Bit) : Word :=
  if v = 1#1 then c ||| 0x00000001#32 else c &&& 0xFFFFFFFE#32

/-- `readBit(c)` (R132): bit 0 of the pixel value. -/
def readBit (c : Word) : Bit := c.extractLsb' 0 1

/-- What `map(pos)` answers (R133). -/
structure PixelBit where
  x : Nat
  y : Nat
  bit : Nat
  deriving DecidableEq, Repr

/-- CARRIER_BIT (R7). -/
def carrierBit : Nat := 0

/-- `map(pos)` on a grid `w` pixels wide (R133). -/
def mapPos (pos w : Nat) : PixelBit := { x := pos % w, y := pos / w, bit := carrierBit }

/-- The PIX word of pixel (x, y) on a grid `w` pixels wide (20_memory.md R51). -/
def pixelWord (p : PixelBit) (w : Nat) : Nat := p.y * w + p.x

end Sys2Proof.Machine
end

