-- ==== Sys2Proof/Machine/Flags.lean ====
section
/-! DEFINITION. STATUS and BVR as the host reads them, and the field encodings (spec/10_state.md R22, R23, R27;
spec/60_exceptions.md R170). -/

namespace Sys2Proof.Machine

/-- The code of an outcome in STATUS[2:0] (R170). -/
def ErrCode.code : ErrCode → BitVec 3
  | .none => 0
  | .capacity => 1
  | .noframe => 2
  | .bitcount => 3
  | .overflow => 4
  | .illegal => 5

/-- STATUS (R23): ERR in [2:0], DET in [3], zero in [31:4]. -/
def State.statusWord (s : State) : Word := 0#28 ++ BitVec.ofBool s.det ++ s.err.code

/-- BVR (R22): BV in [7:0], BVLEN in [11:8], zero in [31:12]. -/
def State.bvrWord (s : State) : Word := 0#20 ++ BitVec.ofNat 4 s.bvlen ++ s.bv

/-- The bit sequence BV and BVLEN hold (R27): `s_j = BV[k-1-j]` for `k = BVLEN`, the oldest bit first. -/
def State.bitSeq (s : State) : List Bit :=
  (List.range s.bvlen).map fun j => s.bv.extractLsb' (s.bvlen - 1 - j) 1

end Sys2Proof.Machine
end

