-- ==== Sys2Proof/Machine/Ops.lean ====
section
/-! DEFINITION. The shared operations over memories and registers, and how a command ends
(spec/00_scope.md R16; spec/20_memory.md R50 to R54; spec/60_exceptions.md R174). -/

namespace Sys2Proof.Machine

/-- How a step or a command ends. -/
abbrev Result := Host.Outcome State Fault Refusal

/-- What an unlisted element reads as: no value, it is unwritten (20_memory.md R53). -/
def Memory.unlisted (w : Nat) : Option (BitVec w) := none

/-- The element at index `i`, if something has written it since reset. -/
def Memory.read {w : Nat} : Memory w → Nat → Option (BitVec w)
  | [], _ => Memory.unlisted w
  | (a, v) :: rest, i => if a = i then some v else Memory.read rest i

/-- The memory after element `i` is written with `v`: sorted insertion, so the canonical form is kept. -/
def Memory.write {w : Nat} : Memory w → Nat → BitVec w → Memory w
  | [], i, v => [(i, v)]
  | (a, x) :: rest, i, v =>
    if i < a then (i, v) :: (a, x) :: rest
    else if i = a then (i, v) :: rest
    else (a, x) :: Memory.write rest i v

/-- The canonical form: indices strictly rising. An unlisted element reads as no value and an entry holds one,
so no entry equals what an unlisted element reads as. -/
abbrev Memory.wf {w : Nat} (m : Memory w) : Prop := (m.map Prod.fst).Pairwise (· < ·)

/-- Capacity of a memory, in elements (10_state.md R29). -/
def capacity (c : Config) : MemId → Nat
  | .key => c.keyCap
  | .msg => c.msgCap
  | .str => c.strCap
  | .pix => c.pixCap

/-- `MemRead(M, i)` inside a command (00_scope.md R16): an unwritten element is the model fault of R53. -/
def fetch {w : Nat} (m : Memory w) (cap : Nat) (id : MemId) (i : Nat) : Except Fault (BitVec w) :=
  if i < cap then
    match m.read i with
    | some v => .ok v
    | none => .error (.unwritten id i)
  else .error (.noSuchElement id i)

/-- `MemWrite(M, i, v)` inside a command (00_scope.md R16). -/
def store {w : Nat} (m : Memory w) (cap : Nat) (id : MemId) (i : Nat) (v : BitVec w) : Except Fault (Memory w) :=
  if i < cap then .ok (m.write i v) else .error (.noSuchElement id i)

/-- `MemRead(KEY, i)`. -/
def State.readKey (s : State) (i : Nat) : Except Fault Byte := fetch s.key (capacity s.cfg .key) .key i

/-- `MemRead(MSG, i)`. -/
def State.readMsg (s : State) (i : Nat) : Except Fault Byte := fetch s.msg (capacity s.cfg .msg) .msg i

/-- `MemRead(STR, i)`. -/
def State.readStr (s : State) (i : Nat) : Except Fault Byte := fetch s.str (capacity s.cfg .str) .str i

/-- `MemRead(PIX, i)`. -/
def State.readPix (s : State) (i : Nat) : Except Fault Word := fetch s.pix (capacity s.cfg .pix) .pix i

/-- `MemWrite(MSG, i, v)`. -/
def State.writeMsg (s : State) (i : Nat) (v : Byte) : Except Fault State := do
  let m ← store s.msg (capacity s.cfg .msg) .msg i v
  .ok { s with msg := m }

/-- `MemWrite(STR, i, v)`. -/
def State.writeStr (s : State) (i : Nat) (v : Byte) : Except Fault State := do
  let m ← store s.str (capacity s.cfg .str) .str i v
  .ok { s with str := m }

/-- `MemWrite(PIX, i, v)`. -/
def State.writePix (s : State) (i : Nat) (v : Word) : Except Fault State := do
  let m ← store s.pix (capacity s.cfg .pix) .pix i v
  .ok { s with pix := m }

/-- WIDTH * HEIGHT, the capacity of the grid in carrier bits (10_state.md R25). -/
def State.gridBits (s : State) : Nat := s.width * s.height

/-- `keyByte(i)` (R100): KEY is not read when KLEN is 0. -/
def State.keyByte (s : State) (i : Nat) : Except Fault Byte :=
  if s.klen = 0 then .ok 0x00#8 else s.readKey (i % s.klen)

/-- `done` (R16): the command ends with `STATUS.ERR <- NONE`. -/
def done (s : State) : Result := .next { s with err := .none }

/-- `raise E` (R16, R174): the command ends with `STATUS.ERR <- E`. State written before it stays, nothing after it
is written. This is the only entry an error has: no state is saved and there is no handler. -/
def raise (e : ErrCode) (s : State) : Result := .next { s with err := e }

/-- Goes on with `k` from a part of a command, or ends in its model fault: the command does not complete (R172). -/
def andThen {α : Type} (e : Except Fault α) (k : α → Result) : Result :=
  match e with
  | .ok a => k a
  | .error f => .fault f

/-- A command whose last part is `e`: it ends with `done`. -/
def finish (e : Except Fault State) : Result := andThen e done

/-- The loop of CRYPT (R101): `n` bytes from index `i` on, each read with `rd`, XORed with its key byte and written
with `wr`, in that order. -/
def cryptLoop (rd : State → Nat → Except Fault Byte) (wr : State → Nat → Byte → Except Fault State) :
    Nat → Nat → State → Except Fault State
  | 0, _, s => .ok s
  | n + 1, i, s => do
    let b ← rd s i
    let k ← s.keyByte i
    let t ← wr s i (b ^^^ k)
    cryptLoop rd wr n (i + 1) t

/-- MSG[0..MLEN) enciphered into STR, and `SLEN <- MLEN`: CRYPT 0 (R101) and stage 1 of HIDE (R150). -/
def encryptMsg (s : State) : Except Fault State := do
  let t ← cryptLoop State.readMsg State.writeStr s.mlen 0 s
  .ok { t with slen := t.mlen }

/-- STR[0..SLEN) deciphered into MSG, and `MLEN <- SLEN`: CRYPT 1 (R101) and the end of SHOW (R160). -/
def decryptStr (s : State) : Except Fault State := do
  let t ← cryptLoop State.readStr State.writeMsg s.slen 0 s
  .ok { t with mlen := t.slen }

/-- The marker written at the end of STR, and `SLEN <- SLEN + 3`: FRAME (R122) and stage 2 of HIDE (R150). -/
def appendEom (s : State) : Except Fault State := do
  let t ← s.writeStr (s.slen + 0) 0x00#8
  let u ← t.writeStr (s.slen + 1) 0x00#8
  let v ← u.writeStr (s.slen + 2) 0x03#8
  .ok { v with slen := s.slen + 3 }

/-- Whether STR[0..SLEN) ends in the marker (R121, R123): the three tail bytes are read, in index order, when
SLEN is at least 3, and STR is not read otherwise. -/
def tailIsEom (s : State) : Except Fault Bool :=
  if 3 ≤ s.slen then do
    let t0 ← s.readStr (s.slen - 3)
    let t1 ← s.readStr (s.slen - 2)
    let t2 ← s.readStr (s.slen - 1)
    .ok ([t0, t1, t2] == eom)
  else .ok false

/-- `RES <- SLEN * 8` and `RES2 <- WIDTH * HEIGHT`: CAPCHK (R140) and stage 3 of HIDE (R150). -/
def recordCapacity (s : State) : State :=
  { s with res := wordOf (s.slen * 8), res2 := wordOf s.gridBits }

/-- The carrier bits `vs` written at POS, POS + 1, ... (R150, stage 4): each pixel word is read whole and written
back with bit 0 replaced. -/
def embedBits : List Bit → State → Except Fault State
  | [], s => .ok s
  | v :: vs, s => do
    let c ← s.readPix s.pos
    let t ← s.writePix s.pos (writeBit c v)
    embedBits vs { t with pos := s.pos + 1 }

/-- `n` bytes of STR from index `i` on embedded at POS, most significant bit first (R150, stage 4). -/
def embedBytes : Nat → Nat → State → Except Fault State
  | 0, _, s => .ok s
  | n + 1, i, s => do
    let b ← s.readStr i
    let t ← embedBits (toBits b) s
    embedBytes n (i + 1) t

/-- The next `n` carrier bits from POS on, and the state with POS past them (R160). -/
def gatherBits : Nat → State → Except Fault (List Bit × State)
  | 0, s => .ok ([], s)
  | n + 1, s => do
    let c ← s.readPix s.pos
    let (vs, t) ← gatherBits n { s with pos := s.pos + 1 }
    .ok (readBit c :: vs, t)

/-- One byte of SHOW's loop (R160): eight carrier bits assembled with `fromBits` and appended to STR. -/
def gatherByte (s : State) : Except Fault State := do
  let (vs, t) ← gatherBits 8 s
  let u ← t.writeStr t.slen (fromBits vs)
  .ok { u with slen := t.slen + 1 }

/-- The loop of SHOW (R160), at most `n` bytes: `true` with the state after the byte that completed the marker,
`false` with the state in which fewer than 8 carrier bits remain. -/
def showLoop : Nat → State → Except Fault (Bool × State)
  | 0, s => .ok (false, s)
  | n + 1, s =>
    if s.pos + 8 > s.gridBits then .ok (false, s)
    else do
      let t ← gatherByte s
      let hit ← tailIsEom t
      if hit then .ok (true, t) else showLoop n t

/-- A number of iterations SHOW's loop cannot exceed from POS = 0 (R162): floor(W*H / 8), and one to see the end. -/
def State.showBound (s : State) : Nat := s.gridBits / 8 + 1

end Sys2Proof.Machine
end

