-- ==== Sys2Proof/Machine/BitCodec.lean ====
section
/-! DEFINITION. The BitCodec family: TOBITS and FROMBITS (spec/42_bitcodec.md). -/

namespace Sys2Proof.Machine

/-- TOBITS b (R112). -/
def execTobits (b : Byte) (s : State) : Result := done { s with bv := b, bvlen := 8 }

/-- FROMBITS (R113). -/
def execFrombits (s : State) : Result :=
  if s.bvlen ≠ 8 then raise .bitcount s
  else if s.slen = s.cfg.strCap then raise .overflow s
  else
    let byte := fromBits (toBits s.bv)
    andThen (s.writeStr s.slen byte) fun t =>
      done { t with slen := s.slen + 1, res := zextByte byte, bv := 0x00#8, bvlen := 0 }

end Sys2Proof.Machine
end

