-- ==== Sys2Proof/Machine/Cipher.lean ====
section
/-! DEFINITION. The Cipher family: CRYPT and XORB (spec/41_cipher.md). -/

namespace Sys2Proof.Machine

/-- CRYPT d (R101). -/
def execCrypt (d : Bit) (s : State) : Result :=
  if d = 0#1 then finish (encryptMsg s)
  else if s.slen > s.cfg.msgCap then raise .overflow s
  else finish (decryptStr s)

/-- XORB idx, b (R102). -/
def execXorb (idx : Nat) (b : Byte) (s : State) : Result :=
  andThen (s.keyByte idx) fun k => done { s with res := zextByte (b ^^^ k) }

end Sys2Proof.Machine
end

