-- ==== Sys2Proof/Machine/Framer.lean ====
section
/-! DEFINITION. The Framer family: FRAME and DETECT (spec/43_framer.md). -/

namespace Sys2Proof.Machine

/-- FRAME (R122). -/
def execFrame (s : State) : Result :=
  if s.slen + 3 > s.cfg.strCap then raise .overflow s else finish (appendEom s)

/-- DETECT (R123). -/
def execDetect (s : State) : Result :=
  andThen (tailIsEom s) fun hit =>
    if hit then done { s with slen := s.slen - 3, det := true } else done { s with det := false }

end Sys2Proof.Machine
end

