-- ==== Sys2Proof/Machine/Orchestration.lean ====
section
/-! DEFINITION. The Orchestration family: HIDE and SHOW (spec/45_orchestration.md). -/

namespace Sys2Proof.Machine

/-- HIDE (R150): encrypt, frame, check the capacity before any pixel is touched, embed from POS = 0. -/
def execHide (s : State) : Result :=
  andThen (encryptMsg s) fun enc =>
    andThen (appendEom enc) fun framed =>
      let t := recordCapacity framed
      if capOk t.slen t.width t.height then finish (embedBytes t.slen 0 { t with pos := 0 })
      else raise .capacity t

/-- SHOW (R160): extract bytes until the marker, strip it, decrypt what stands before it. -/
def execShow (s : State) : Result :=
  andThen (showLoop s.showBound { s with slen := 0, pos := 0, det := false }) fun r =>
    if r.1 then
      let t := { r.2 with slen := r.2.slen - 3, det := true }
      if t.slen > t.cfg.msgCap then raise .overflow t else finish (decryptStr t)
    else raise .noframe r.2

end Sys2Proof.Machine
end

