-- ==== Sys2Proof/Machine/PixelChannel.lean ====
section
/-! DEFINITION. The PixelChannel family: CAPCHK, WRBIT, RDBIT and MAP (spec/44_pixelchannel.md). -/

namespace Sys2Proof.Machine

/-- CAPCHK (R140): RES and RES2 are written even when it raises CAPACITY. -/
def execCapchk (s : State) : Result :=
  if capOk s.slen s.width s.height then done (recordCapacity s) else raise .capacity (recordCapacity s)

/-- The PIX word a primitive bit command works on: the pixel `map(POS)` (R133, R141, R142). -/
def State.carrierWord (s : State) : Nat := pixelWord (mapPos s.pos s.width) s.width

/-- WRBIT v (R141). -/
def execWrbit (v : Bit) (s : State) : Result :=
  if s.pos ≥ s.gridBits then raise .capacity s
  else
    andThen (s.readPix s.carrierWord) fun c =>
      andThen (s.writePix s.carrierWord (writeBit c v)) fun t =>
        done { t with res := writeBit c v, res2 := c, pos := s.pos + 1 }

/-- RDBIT (R142). -/
def execRdbit (s : State) : Result :=
  if s.bvlen = 8 then raise .bitcount s
  else if s.pos ≥ s.gridBits then raise .capacity s
  else
    andThen (s.readPix s.carrierWord) fun c =>
      done { s with bv := (s.bv <<< 1) ||| (readBit c).zeroExtend 8, bvlen := s.bvlen + 1,
                    res := zextBit (readBit c), pos := s.pos + 1 }

/-- MAP (R143): WIDTH is not 0 where it divides, because POS is below WIDTH * HEIGHT there. -/
def execMap (s : State) : Result :=
  if s.pos ≥ s.gridBits then raise .capacity s
  else
    let p := mapPos s.pos s.width
    done { s with res := wordOf p.x, res2 := wordOf p.y }

end Sys2Proof.Machine
end

