-- ==== Sys2Proof/Machine/Dispatch.lean ====
section
/-! DEFINITION. One arm per command, each a direct call of its meaning (spec/30_encoding.md R71). -/

namespace Sys2Proof.Machine

def exec (i : Instr) (s : State) : Host.Outcome State Fault Refusal :=
  match i with
  | .crypt d => Sys2Proof.Machine.execCrypt d s
  | .xorb idx b => Sys2Proof.Machine.execXorb idx b s
  | .tobits b => Sys2Proof.Machine.execTobits b s
  | .frombits => Sys2Proof.Machine.execFrombits s
  | .frame => Sys2Proof.Machine.execFrame s
  | .detect => Sys2Proof.Machine.execDetect s
  | .capchk => Sys2Proof.Machine.execCapchk s
  | .wrbit v => Sys2Proof.Machine.execWrbit v s
  | .rdbit => Sys2Proof.Machine.execRdbit s
  | .map => Sys2Proof.Machine.execMap s
  | .hide => Sys2Proof.Machine.execHide s
  | .showCmd => Sys2Proof.Machine.execShow s

end Sys2Proof.Machine
end

