-- ==== Sys2Proof/Machine/HostPort.lean ====
section
/-! DEFINITION. The host's operations on the block: the command port, the register port, the memory port and Reset
(spec/10_state.md R22, R33; spec/60_exceptions.md R184, R185; spec/70_reset_and_hazards.md R190). -/

namespace Sys2Proof.Machine

/-- The register at an index (R22); indices 0xB and above are not assigned. -/
def RegId.ofIndex : Nat → Option RegId
  | 0x0 => some .cmd
  | 0x1 => some .status
  | 0x2 => some .width
  | 0x3 => some .height
  | 0x4 => some .klen
  | 0x5 => some .mlen
  | 0x6 => some .slen
  | 0x7 => some .pos
  | 0x8 => some .bvr
  | 0x9 => some .res
  | 0xA => some .res2
  | _ => none

/-- A command word executed to completion (R33); an illegal word writes STATUS.ERR and nothing else (R79). -/
def issue (w : Word) (s : State) : Result :=
  match decode w with
  | .ok i => exec i s
  | .error _ => raise .illegal s

/-- `t` is the state after a RegWrite of `v` to register index `r`, if `v` is at most `max` (R22); otherwise the
write is a protocol violation (R185). -/
def setWithin (r v max : Nat) (t : State) : Result :=
  if v ≤ max then .next t else .refused (.registerValueOutOfRange r v)

/-- `RegWrite(r, v)` (R184). A command word is 32 bits (R22), so a wider value of CMD is out of range. -/
def regWrite (r v : Nat) (s : State) : Result :=
  match RegId.ofIndex r with
  | none => .refused (.unassignedRegister r)
  | some .cmd =>
    if v < 2 ^ 32 then issue (BitVec.ofNat 32 v) s else .refused (.registerValueOutOfRange r v)
  | some .width => setWithin r v s.cfg.maxW { s with width := v }
  | some .height => setWithin r v s.cfg.maxH { s with height := v }
  | some .klen => setWithin r v s.cfg.keyCap { s with klen := v }
  | some .mlen => setWithin r v s.cfg.msgCap { s with mlen := v }
  | some .slen => setWithin r v s.cfg.strCap { s with slen := v }
  | some .pos => setWithin r v s.cfg.pixCap { s with pos := v }
  | some .status => .refused (.readOnlyRegister r)
  | some .bvr => .refused (.readOnlyRegister r)
  | some .res => .refused (.readOnlyRegister r)
  | some .res2 => .refused (.readOnlyRegister r)

/-- A read's answer: the value goes to the host and nothing else changes (R57, R184). -/
def answer (v : Word) (s : State) : Result := .next { s with outbox := v :: s.outbox }

/-- `RegRead(r)` (R184): the value, zero-extended to 32 bits. -/
def regRead (r : Nat) (s : State) : Result :=
  match RegId.ofIndex r with
  | none => .refused (.unassignedRegister r)
  | some .cmd => .refused .readOfCmd
  | some .status => answer s.statusWord s
  | some .width => answer (wordOf s.width) s
  | some .height => answer (wordOf s.height) s
  | some .klen => answer (wordOf s.klen) s
  | some .mlen => answer (wordOf s.mlen) s
  | some .slen => answer (wordOf s.slen) s
  | some .pos => answer (wordOf s.pos) s
  | some .bvr => answer s.bvrWord s
  | some .res => answer s.res s
  | some .res2 => answer s.res2 s

/-- A byte `v` to write into memory `m`, or a violation if it is above 255 (R185). -/
def asByte (m : MemId) (v : Nat) (k : Byte → State) : Result :=
  if v < 2 ^ 8 then .next (k (BitVec.ofNat 8 v)) else .refused (.memoryValueOutOfRange m v)

/-- A pixel word `v` to write, or a violation if it is no 32-bit word (R184). -/
def asWord (m : MemId) (v : Nat) (k : Word → State) : Result :=
  if v < 2 ^ 32 then .next (k (BitVec.ofNat 32 v)) else .refused (.memoryValueOutOfRange m v)

/-- `MemWrite(M, i, v)` (R184). -/
def memWrite (m : MemId) (i v : Nat) (s : State) : Result :=
  if i < capacity s.cfg m then
    match m with
    | .key => asByte m v fun b => { s with key := s.key.write i b }
    | .msg => asByte m v fun b => { s with msg := s.msg.write i b }
    | .str => asByte m v fun b => { s with str := s.str.write i b }
    | .pix => asWord m v fun c => { s with pix := s.pix.write i c }
  else .refused (.memoryIndexOutOfRange m i)

/-- The element `M[i]` as the host reads it, if it has been written. -/
def State.element (s : State) (m : MemId) (i : Nat) : Option Word :=
  match m with
  | .key => (s.key.read i).map zextByte
  | .msg => (s.msg.read i).map zextByte
  | .str => (s.str.read i).map zextByte
  | .pix => s.pix.read i

/-- `MemRead(M, i)` (R184): an unwritten element is the model fault of R53. -/
def memRead (m : MemId) (i : Nat) (s : State) : Result :=
  if i < capacity s.cfg m then
    match s.element m i with
    | some v => answer v s
    | none => .fault (.unwritten m i)
  else .refused (.memoryIndexOutOfRange m i)

/-- `Reset` (R190): every piece of the block's state takes its value of R34. The parameters, the host's pending
operations and what it has read are not the block's state (log entry 2). -/
def resetBlock (s : State) : State := { State.resetOf s.cfg with inbox := s.inbox, outbox := s.outbox }

/-- Goes on unless the fault mark is set (R172, R187; log entry 4). -/
def unlessMarked (s : State) (r : Result) : Result := if s.faultMark then .fault .faultMarked else r

/-- One host operation (R184). -/
def perform (op : HostOp) (s : State) : Result :=
  match op with
  | .regWrite r v => unlessMarked s (regWrite r v s)
  | .regRead r => unlessMarked s (regRead r s)
  | .memWrite m i v => unlessMarked s (memWrite m i v s)
  | .memRead m i => unlessMarked s (memRead m i s)
  | .reset => .next (resetBlock s)

/-- No operation is pending: the block is idle and keeps all its state (R182). -/
def idle (s : State) : Result := unlessMarked s (.next s)

end Sys2Proof.Machine
end

