-- ==== Sys2Proof/Machine/Step.lean ====
section
/-! DEFINITION. One step of the machine: the host's next operation, to completion (spec/10_state.md R20, R33). -/

namespace Sys2Proof.Machine

/-- One step: the next host operation, or idling when none is pending (log entries 2 and 3). -/
def step (s : State) : Host.Outcome State Fault Refusal :=
  match s.inbox with
  | [] => idle s
  | op :: rest => perform op { s with inbox := rest }

/-- `s` with the host about to write the word `w`, of `nbits` bits, to CMD: the next step runs it. A command
has 32 bits (R70). A set fault mark would stop that step, so it is cleared. -/
def State.withFetchWord (s : State) (nbits w : Nat) : State :=
  { s with faultMark := false, inbox := .regWrite 0x0 (w % 2 ^ (min nbits 32)) :: s.inbox }

end Sys2Proof.Machine
end

