-- ==== Sys2Proof/Machine/Listing.lean ====
section
/-! DEFINITION. Assembly text and program listings (spec/30_encoding.md R81 to R83): text to commands, and listing
lines to the host operations they stand for. Text is a list of characters. -/

namespace Sys2Proof.Machine

/-- The mnemonics of R81 and the two pseudo-instructions of R82. -/
inductive Mnemonic where
  | crypt
  | xorb
  | tobits
  | frombits
  | frame
  | detect
  | capchk
  | wrbit
  | rdbit
  | map
  | hide
  | showCmd
  | encrypt
  | decrypt
  deriving DecidableEq, Repr

/-- A command from its mnemonic and operands (R81, R82): an operand out of its range is refused, never truncated. -/
def assembleOps : Mnemonic → List Nat → Option Instr
  | .crypt, [d] => if d < 2 then some (.crypt (BitVec.ofNat 1 d)) else none
  | .xorb, [idx, b] => if idx < 2 ^ 20 ∧ b < 2 ^ 8 then some (.xorb idx (BitVec.ofNat 8 b)) else none
  | .tobits, [b] => if b < 2 ^ 8 then some (.tobits (BitVec.ofNat 8 b)) else none
  | .frombits, [] => some .frombits
  | .frame, [] => some .frame
  | .detect, [] => some .detect
  | .capchk, [] => some .capchk
  | .wrbit, [v] => if v < 2 then some (.wrbit (BitVec.ofNat 1 v)) else none
  | .rdbit, [] => some .rdbit
  | .map, [] => some .map
  | .hide, [] => some .hide
  | .showCmd, [] => some .showCmd
  | .encrypt, [] => some (.crypt 0#1)
  | .decrypt, [] => some (.crypt 1#1)
  | _, _ => none

/-- How each mnemonic is spelled (R81, R82). -/
def mnemonicNames : List (List Char × Mnemonic) :=
  [(['C', 'R', 'Y', 'P', 'T'], .crypt), (['X', 'O', 'R', 'B'], .xorb),
   (['T', 'O', 'B', 'I', 'T', 'S'], .tobits), (['F', 'R', 'O', 'M', 'B', 'I', 'T', 'S'], .frombits),
   (['F', 'R', 'A', 'M', 'E'], .frame), (['D', 'E', 'T', 'E', 'C', 'T'], .detect),
   (['C', 'A', 'P', 'C', 'H', 'K'], .capchk), (['W', 'R', 'B', 'I', 'T'], .wrbit),
   (['R', 'D', 'B', 'I', 'T'], .rdbit), (['M', 'A', 'P'], .map), (['H', 'I', 'D', 'E'], .hide),
   (['S', 'H', 'O', 'W'], .showCmd), (['E', 'N', 'C', 'R', 'Y', 'P', 'T'], .encrypt),
   (['D', 'E', 'C', 'R', 'Y', 'P', 'T'], .decrypt)]

/-- The value of a digit of base 16 or less. -/
def digitValue (c : Char) : Option Nat :=
  let n := c.toNat
  if 48 ≤ n ∧ n ≤ 57 then some (n - 48)
  else if 97 ≤ n ∧ n ≤ 102 then some (n - 87)
  else if 65 ≤ n ∧ n ≤ 70 then some (n - 55)
  else none

/-- A non-empty run of digits of base `base`, most significant first. -/
def parseDigits (base : Nat) (acc : Nat) : List Char → Option Nat
  | [] => none
  | c :: rest =>
    match digitValue c with
    | none => none
    | some d =>
      if d < base then
        match rest with
        | [] => some (acc * base + d)
        | _ => parseDigits base (acc * base + d) rest
      else none

/-- A number of R81: decimal, or hexadecimal with a `0x` prefix. -/
def parseNumber : List Char → Option Nat
  | '0' :: 'x' :: digits => parseDigits 16 0 digits
  | digits => parseDigits 10 0 digits

/-- A blank between the parts of a line (log entry 11). -/
def isBlank (c : Char) : Bool := c == ' ' || c == '\t'

/-- Blanks at both ends removed. -/
def trimBlanks (t : List Char) : List Char := ((t.dropWhile isBlank).reverse.dropWhile isBlank).reverse

/-- The pieces of a text between commas. -/
def splitCommas : List Char → List (List Char)
  | [] => [[]]
  | c :: rest =>
    match splitCommas rest with
    | [] => [[c]]
    | piece :: pieces => if c == ',' then [] :: piece :: pieces else (c :: piece) :: pieces

/-- The operands after a mnemonic: none, or numbers separated by commas (R81). -/
def parseOperands (t : List Char) : Option (List Nat) :=
  if (trimBlanks t).isEmpty then some []
  else (splitCommas t).mapM fun piece => parseNumber (trimBlanks piece)

/-- One line of assembly (R81): a comment from `;` on, the mnemonic, the operands. `none` where the assembler
refuses the line; `some none` for a line without a command. -/
def assembleLine (line : List Char) : Option (Option Instr) :=
  let code := trimBlanks (line.takeWhile (· ≠ ';'))
  if code.isEmpty then some none
  else
    let name := code.takeWhile fun c => !isBlank c
    match mnemonicNames.lookup name with
    | none => none
    | some m =>
      match parseOperands (code.drop name.length) with
      | none => none
      | some operands => (assembleOps m operands).map some

/-- A line of a program listing: a command, or a host operation of R83. -/
inductive ListingLine where
  /-- A command line, issued through CMD. -/
  | command (i : Instr)
  /-- `wr REG, value`. -/
  | wr (r : Nat) (v : Nat)
  /-- `rd REG`. -/
  | rd (r : Nat)
  /-- `wrmem M, i, v0 v1 ...`. -/
  | wrmem (m : MemId) (i : Nat) (vs : List Nat)
  /-- `rdmem M, i, n`. -/
  | rdmem (m : MemId) (i n : Nat)
  /-- `fill PIX, value`. -/
  | fill (v : Nat)
  deriving DecidableEq, Repr

/-- Consecutive writes to M[i], M[i+1], ... (R83). -/
def wrmemOps (m : MemId) : Nat → List Nat → List HostOp
  | _, [] => []
  | i, v :: vs => .memWrite m i v :: wrmemOps m (i + 1) vs

/-- Reads of M[i..i+n) (R83). -/
def rdmemOps (m : MemId) (i n : Nat) : List HostOp := (List.range n).map fun j => .memRead m (i + j)

/-- The host operations a listing line stands for (R83); `gridBits` is WIDTH * HEIGHT when the line runs. -/
def ListingLine.ops (line : ListingLine) (gridBits : Nat) : List HostOp :=
  match line with
  | .command i => [.regWrite 0x0 (encode i).toNat]
  | .wr r v => [.regWrite r v]
  | .rd r => [.regRead r]
  | .wrmem m i vs => wrmemOps m i vs
  | .rdmem m i n => rdmemOps m i n
  | .fill v => wrmemOps .pix 0 (List.replicate gridBits v)

/-- `s` with the host about to do `ops` after all it was about to do. -/
def State.submit (s : State) (ops : List HostOp) : State := { s with inbox := s.inbox ++ ops }

end Sys2Proof.Machine
end

