-- ==== Sys2Proof/Machine/HostFlow.lean ====
section
/-! DEFINITION. The host flows around the block (spec/60_exceptions.md R186): the host's part of a Hide and a Show
that touches the block, as lists of host operations. Image files, prompts and printing are out of scope
(spec/00_scope.md R6). -/

namespace Sys2Proof.Machine

/-- Text to bytes (R186): each character is the byte of its code, and text with a code above 255 is refused. -/
def textToBytes (t : List Char) : Option (List Byte) :=
  t.mapM fun c => if c.toNat < 2 ^ 8 then some (BitVec.ofNat 8 c.toNat) else none

/-- Bytes to text (R186): each byte is the character of its code. -/
def bytesToText (bytes : List Byte) : List Char := bytes.map fun b => Char.ofNat b.toNat

/-- WIDTH, HEIGHT and the pixels in raster order, then KEY and KLEN: what both flows load first (R186, R192). -/
def loadOps (w h : Nat) (pixels : List Word) (key : List Byte) : List HostOp :=
  [.regWrite 0x2 w, .regWrite 0x3 h] ++ wrmemOps .pix 0 (pixels.map (·.toNat)) ++
    wrmemOps .key 0 (key.map (·.toNat)) ++ [.regWrite 0x4 key.length]

/-- Hide flow, steps 3 and 4 (R186): load, write MSG and MLEN, issue HIDE, read STATUS. -/
def hideFlow (w h : Nat) (pixels : List Word) (key msg : List Byte) : List HostOp :=
  loadOps w h pixels key ++ wrmemOps .msg 0 (msg.map (·.toNat)) ++
    [.regWrite 0x5 msg.length, .regWrite 0x0 (encode .hide).toNat, .regRead 0x1]

/-- Show flow, steps 3 and 4 (R186): load, issue SHOW, read STATUS. -/
def showFlow (w h : Nat) (pixels : List Word) (key : List Byte) : List HostOp :=
  loadOps w h pixels key ++ [.regWrite 0x0 (encode .showCmd).toNat, .regRead 0x1]

/-- What the host does after it has read STATUS. -/
inductive HostAction where
  /-- Report that the image is too small; do not save. -/
  | reportTooSmall
  /-- Save the grid read back from PIX with these reads. -/
  | saveGrid (reads : List HostOp)
  /-- Print MSG[0..MLEN) as text: read MLEN, then these bytes of MSG. -/
  | printMessage (reads : List HostOp)
  /-- Report the decode error. -/
  | reportDecodeError
  deriving DecidableEq, Repr

/-- Hide flow, steps 5 and 6 (R186), from the code in STATUS[2:0]; R186 gives no action for another code. -/
def afterHide (w h : Nat) (status : Word) : Option HostAction :=
  if status.extractLsb' 0 3 = ErrCode.none.code then some (.saveGrid (rdmemOps .pix 0 (w * h)))
  else if status.extractLsb' 0 3 = ErrCode.capacity.code then some .reportTooSmall
  else none

/-- Show flow, step 5 (R186), from the code in STATUS[2:0] and the value of MLEN; R186 gives no action for another
code. -/
def afterShow (mlen : Nat) (status : Word) : Option HostAction :=
  if status.extractLsb' 0 3 = ErrCode.none.code then
    some (.printMessage (.regRead 0x5 :: rdmemOps .msg 0 mlen))
  else if status.extractLsb' 0 3 = ErrCode.noframe.code then some .reportDecodeError
  else none

end Sys2Proof.Machine
end

