-- ==== Sys2Proof/Safety.lean ====
section
/-! DEFINITION. What counts as a legal state and a safe run, and the terms the statements use
(spec/10_state.md R22, R27, R32; spec/60_exceptions.md R172, R173, R187). -/

namespace Sys2Proof.Machine

/-- Every listed index exists (20_memory.md R50). -/
abbrev Memory.InRange {w : Nat} (m : Memory w) (cap : Nat) : Prop := ∀ c ∈ m, c.1 < cap

/-- The dimensions, lengths and POS hold legal values (R22). -/
abbrev State.RegistersLegal (s : State) : Prop :=
  s.width ≤ s.cfg.maxW ∧ s.height ≤ s.cfg.maxH ∧ s.klen ≤ s.cfg.keyCap ∧ s.mlen ≤ s.cfg.msgCap ∧
    s.slen ≤ s.cfg.strCap ∧ s.pos ≤ s.cfg.pixCap

/-- BVLEN never exceeds 8, and BV bits BVLEN and above are 0 (R27). -/
abbrev State.BitSequenceLegal (s : State) : Prop := s.bvlen ≤ 8 ∧ s.bv.toNat < 2 ^ s.bvlen

/-- The four memories are in canonical form and list no index that does not exist. -/
abbrev State.MemoriesLegal (s : State) : Prop :=
  (s.key.wf ∧ s.key.InRange (capacity s.cfg .key)) ∧ (s.msg.wf ∧ s.msg.InRange (capacity s.cfg .msg)) ∧
    (s.str.wf ∧ s.str.InRange (capacity s.cfg .str)) ∧ (s.pix.wf ∧ s.pix.InRange (capacity s.cfg .pix))

/-- The invariant of the machine: conforming parameters (R10, R11) and legal values everywhere. -/
abbrev State.Inv (s : State) : Prop :=
  s.cfg.Conforming ∧ s.RegistersLegal ∧ s.BitSequenceLegal ∧ s.MemoriesLegal

/-- `M[0..len(xs)) = xs`: every one of these elements is written and has this value. -/
abbrev Memory.Holds {w : Nat} (m : Memory w) (xs : List (BitVec w)) : Prop :=
  ∀ (j : Nat) (h : j < xs.length), m.read j = some xs[j]

/-- `MSG[0..MLEN) = m` (00_scope.md R18). -/
abbrev State.HasMessage (s : State) (m : List Byte) : Prop := m.length = s.mlen ∧ s.msg.Holds m

/-- `STR[0..SLEN) = x` (00_scope.md R18). -/
abbrev State.HasStream (s : State) (x : List Byte) : Prop := x.length = s.slen ∧ s.str.Holds x

/-- `key` is a password of KLEN bytes of which KEY holds at least the first `n`: all that ciphering `n` bytes uses
(41_cipher.md R101). -/
abbrev State.HasKey (s : State) (n : Nat) (key : List Byte) : Prop := key.length = s.klen ∧ s.key.Holds (key.take n)

/-- The bits of a byte stream, most significant bit of each byte first (42_bitcodec.md R110). -/
def streamBits (x : List Byte) : List Bit := x.flatMap toBits

/-- The carrier bits of PIX from word 0 on spell the bytes `x`. -/
abbrev State.GridSpells (s : State) (x : List Byte) : Prop :=
  ∀ (k : Nat) (h : k < (streamBits x).length), (s.pix.read k).map readBit = some (streamBits x)[k]

/-- The first `n` PIX words are written. -/
abbrev State.GridLoaded (s : State) (n : Nat) : Prop := ∀ k < n, (s.pix.read k).isSome

/-- No marker ends within the first `n` bytes of `x` or at their end: no hit of the detector there (43_framer.md R125). -/
abbrev NoMarkerUpTo (n : Nat) (x : List Byte) : Prop := ∀ k ≤ n, eomAt (x.take k) = false

/-- `x` contains no three consecutive bytes 00 00 03 (45_orchestration.md R152). -/
abbrev MarkerFree (x : List Byte) : Prop := NoMarkerUpTo x.length x

/-- The element reads of CRYPT's loop in pseudocode order, from index `i` on, `n` bytes (41_cipher.md R101). -/
def cryptReads (src : MemId) (klen : Nat) : Nat → Nat → List (MemId × Nat)
  | 0, _ => []
  | n + 1, i => (src, i) :: ((if klen = 0 then [] else [(.key, i % klen)]) ++ cryptReads src klen n (i + 1))

/-- `n` reads of PIX from word `i` on. -/
def pixReads (n i : Nat) : List (MemId × Nat) := (List.range n).map fun j => (.pix, i + j)

/-- The first of these elements that nothing has written: what a model fault reports (60_exceptions.md R173). -/
def State.firstUnwritten (s : State) (reads : List (MemId × Nat)) : Option (MemId × Nat) :=
  reads.find? fun p => (s.element p.1 p.2).isNone

/-- What a RegRead of index `r` shows as a number, from the register's fields (R22, R23; the codes of
60_exceptions.md R170). -/
def State.registerNumber (s : State) (r : Nat) : Option Nat :=
  match r with
  | 0x1 =>
    some ((match s.err with
      | .none => 0 | .capacity => 1 | .noframe => 2 | .bitcount => 3 | .overflow => 4 | .illegal => 5) +
        8 * (if s.det then 1 else 0))
  | 0x2 => some s.width
  | 0x3 => some s.height
  | 0x4 => some s.klen
  | 0x5 => some s.mlen
  | 0x6 => some s.slen
  | 0x7 => some s.pos
  | 0x8 => some (s.bv.toNat + 256 * s.bvlen)
  | 0x9 => some s.res.toNat
  | 0xA => some s.res2.toNat
  | _ => none

/-- One pass of the primitive decode loop: eight RDBITs, FROMBITS, DETECT (45_orchestration.md R154). -/
def decodePass : List Instr := List.replicate 8 .rdbit ++ [.frombits, .detect]

/-- A sequence of primitive commands, one after the other (45_orchestration.md R154). -/
def runCommands : List Instr → State → Result
  | [], s => .next s
  | i :: rest, s =>
    match exec i s with
    | .next t => runCommands rest t
    | .fault f => .fault f
    | .refused r => .refused r

/-- What stands recorded after a step (R32, R172): a model fault sets the fault mark and leaves the rest as it was,
and the operation is gone; a refused operation does nothing (log entry 4). -/
def State.recorded (s : State) : State :=
  match step s with
  | .next t => t
  | .fault _ => { s with inbox := s.inbox.tail, faultMark := true }
  | .refused _ => s

/-- What a run shows at its end (R187): every register and every memory element that is marked written. -/
structure Observation where
  status : Word
  width : Nat
  height : Nat
  klen : Nat
  mlen : Nat
  slen : Nat
  pos : Nat
  bvr : Word
  res : Word
  res2 : Word
  key : Memory 8
  msg : Memory 8
  str : Memory 8
  pix : Memory 32
  deriving DecidableEq, Repr

/-- The observation of a run that ends in `s`; a run whose fault mark is set has no final state (R187). -/
def State.observe (s : State) : Option Observation :=
  if s.faultMark then none
  else some { status := s.statusWord, width := s.width, height := s.height, klen := s.klen, mlen := s.mlen,
              slen := s.slen, pos := s.pos, bvr := s.bvrWord, res := s.res, res2 := s.res2,
              key := s.key, msg := s.msg, str := s.str, pix := s.pix }

end Sys2Proof.Machine
end

