-- ==== Sys2Proof/Certificates/Slice0/Obligations.lean ====
section
/-! DEFINITION. The statements for the provers. Each docstring names the rule of spec/ it formalises; a state is
assumed to meet `State.Inv` where it could fail only in states no run reaches. -/

open Sys2Proof Sys2Proof.Machine

/-! ### Encoding -/

/-- Decoding the word of a well-formed command gives the command back (30_encoding.md sections 1 and 2). -/
def Obligations.DecodeInvertsEncode : Prop :=
  ∀ i : Instr, i.WellFormed = true → decode (encode i) = .ok i

/-- R80: every word decodes to exactly one command with its operands, or to ILLEGAL. -/
def Obligations.EachWordIsOneCommandOrIllegal : Prop :=
  ∀ w : Word,
    (∃ i : Instr, decode w = .ok i ∧ i.WellFormed = true ∧ encode i = w ∧
      ∀ j : Instr, j.WellFormed = true → encode j = w → j = i) ∨
    (∃ e : DecodeError, decode w = .error e ∧ ∀ j : Instr, j.WellFormed = true → encode j ≠ w)

/-- R72: the words of each command are those its format's match and mask give, and the operands are the fields
`w[0]`, `w[7:0]` and `w[27:8]`. -/
def Obligations.LegalWordsMatchTheirFormats : Prop :=
  ∀ w : Word,
    ((∃ d, decode w = .ok (.crypt d)) ↔ w &&& 0xFFFFFFFE#32 = 0x10000000#32) ∧
    ((∃ idx b, decode w = .ok (.xorb idx b)) ↔ w &&& 0xF0000000#32 = 0x20000000#32) ∧
    ((∃ b, decode w = .ok (.tobits b)) ↔ w &&& 0xFFFFFF00#32 = 0x30000000#32) ∧
    (decode w = .ok .frombits ↔ w = 0x40000000#32) ∧
    (decode w = .ok .frame ↔ w = 0x50000000#32) ∧
    (decode w = .ok .detect ↔ w = 0x60000000#32) ∧
    (decode w = .ok .capchk ↔ w = 0x70000000#32) ∧
    ((∃ v, decode w = .ok (.wrbit v)) ↔ w &&& 0xFFFFFFFE#32 = 0x80000000#32) ∧
    (decode w = .ok .rdbit ↔ w = 0x90000000#32) ∧
    (decode w = .ok .map ↔ w = 0xA0000000#32) ∧
    (decode w = .ok .hide ↔ w = 0xB0000000#32) ∧
    (decode w = .ok .showCmd ↔ w = 0xC0000000#32) ∧
    (∀ d, decode w = .ok (.crypt d) → d.toNat = w.toNat % 2) ∧
    (∀ v, decode w = .ok (.wrbit v) → v.toNat = w.toNat % 2) ∧
    (∀ b, decode w = .ok (.tobits b) → b.toNat = w.toNat % 2 ^ 8) ∧
    (∀ idx b, decode w = .ok (.xorb idx b) → idx = w.toNat / 2 ^ 8 % 2 ^ 20 ∧ b.toNat = w.toNat % 2 ^ 8)

/-- The words of 95_test_vectors.md V-ENC-1 to V-ENC-14 decode to the commands they stand for. -/
def Obligations.VectorWordsDecode : Prop :=
  decode 0x10000000#32 = .ok (.crypt 0#1) ∧ decode 0x10000001#32 = .ok (.crypt 1#1) ∧
  decode 0x20000441#32 = .ok (.xorb 4 0x41#8) ∧ decode 0x2FFFFFFF#32 = .ok (.xorb 1048575 0xFF#8) ∧
  decode 0x300000A5#32 = .ok (.tobits 0xA5#8) ∧ decode 0x40000000#32 = .ok .frombits ∧
  decode 0x50000000#32 = .ok .frame ∧ decode 0x60000000#32 = .ok .detect ∧
  decode 0x70000000#32 = .ok .capchk ∧ decode 0x80000000#32 = .ok (.wrbit 0#1) ∧
  decode 0x80000001#32 = .ok (.wrbit 1#1) ∧ decode 0x90000000#32 = .ok .rdbit ∧
  decode 0xA0000000#32 = .ok .map ∧ decode 0xB0000000#32 = .ok .hide ∧ decode 0xC0000000#32 = .ok .showCmd

/-- The assembler (30_encoding.md section 4): for every mnemonic and every operand list, what it accepts is exactly the
syntax of that mnemonic with every operand in its range, and an accepted command has the operands written. A wrong
number of operands and an operand out of its range are refused, never truncated. ENCRYPT and DECRYPT stand for CRYPT 0
and CRYPT 1, and whatever is accepted has a word that decodes back to it. -/
def Obligations.AssemblerRefusesOutOfRange : Prop :=
  (∀ (m : Mnemonic) (ops : List Nat) (i : Instr), assembleOps m ops = some i ↔
    match m with
    | .crypt => ∃ d, ops = [d] ∧ d ≤ 1 ∧ ∃ v : Bit, v.toNat = d ∧ i = .crypt v
    | .xorb => ∃ idx b, ops = [idx, b] ∧ idx ≤ 1048575 ∧ b ≤ 255 ∧ ∃ x : Byte, x.toNat = b ∧ i = .xorb idx x
    | .tobits => ∃ b, ops = [b] ∧ b ≤ 255 ∧ ∃ x : Byte, x.toNat = b ∧ i = .tobits x
    | .frombits => ops = [] ∧ i = .frombits
    | .frame => ops = [] ∧ i = .frame
    | .detect => ops = [] ∧ i = .detect
    | .capchk => ops = [] ∧ i = .capchk
    | .wrbit => ∃ v, ops = [v] ∧ v ≤ 1 ∧ ∃ x : Bit, x.toNat = v ∧ i = .wrbit x
    | .rdbit => ops = [] ∧ i = .rdbit
    | .map => ops = [] ∧ i = .map
    | .hide => ops = [] ∧ i = .hide
    | .showCmd => ops = [] ∧ i = .showCmd
    | .encrypt => ops = [] ∧ i = .crypt 0#1
    | .decrypt => ops = [] ∧ i = .crypt 1#1) ∧
  (assembleOps .encrypt []).map encode = some 0x10000000#32 ∧
  (assembleOps .decrypt []).map encode = some 0x10000001#32 ∧
  (∀ m ops i, assembleOps m ops = some i → decode (encode i) = .ok i)

/-! ### The step and the host's operations -/

/-- R33: a host write of a word to CMD executes the command it encodes as one step, and reading CMD is refused.
The model's step takes the host's next operation from `inbox` (log entry 2). -/
def Obligations.StepRunsDecodedCommand : Prop :=
  (∀ (s : State) (i : Instr) (w : Word) (rest : List HostOp),
    s.faultMark = false → s.inbox = .regWrite 0x0 w.toNat :: rest → decode w = .ok i →
      step s = exec i { s with inbox := rest }) ∧
  (∀ (s : State) (i : Instr) (rest : List HostOp),
    s.faultMark = false → s.inbox = .regWrite 0x0 (encode i).toNat :: rest → i.WellFormed = true →
      step s = exec i { s with inbox := rest }) ∧
  (∀ (s : State) (rest : List HostOp),
    s.faultMark = false → s.inbox = .regRead 0x0 :: rest → step s = .refused .readOfCmd)

/-- R78, R79: a word with OPC 0x0, 0xD, 0xE or 0xF, or with a 1 in a reserved bit of its format, writes ILLEGAL to
STATUS.ERR and changes nothing else; every other word runs a command. -/
def Obligations.IllegalWordWritesOnlyErr : Prop :=
  ∀ (s : State) (w : Word) (rest : List HostOp), s.faultMark = false →
    s.inbox = .regWrite 0x0 w.toNat :: rest →
    let opc := w.toNat / 2 ^ 28
    let illegal := opc = 0x0 ∨ opc = 0xD ∨ opc = 0xE ∨ opc = 0xF ∨
      ((opc = 0x1 ∨ opc = 0x8) ∧ w.toNat % 2 ^ 28 / 2 ≠ 0) ∨
      (opc = 0x3 ∧ w.toNat % 2 ^ 28 / 2 ^ 8 ≠ 0) ∨
      (opc ∈ [0x4, 0x5, 0x6, 0x7, 0x9, 0xA, 0xB, 0xC] ∧ w.toNat % 2 ^ 28 ≠ 0)
    (illegal → step s = .next { s with inbox := rest, err := .illegal }) ∧
    (¬ illegal → ∃ i, i.WellFormed = true ∧ decode w = .ok i ∧ step s = exec i { s with inbox := rest })

/-- A RegWrite of a legal value sets the register and nothing else (60_exceptions.md section 5). -/
def Obligations.HostRegisterWriteSetsOnlyIt : Prop :=
  ∀ (s : State) (v : Nat) (rest : List HostOp), s.faultMark = false →
    (s.inbox = .regWrite 0x2 v :: rest → v ≤ s.cfg.maxW → step s = .next { s with inbox := rest, width := v }) ∧
    (s.inbox = .regWrite 0x3 v :: rest → v ≤ s.cfg.maxH → step s = .next { s with inbox := rest, height := v }) ∧
    (s.inbox = .regWrite 0x4 v :: rest → v ≤ s.cfg.keyCap → step s = .next { s with inbox := rest, klen := v }) ∧
    (s.inbox = .regWrite 0x5 v :: rest → v ≤ s.cfg.msgCap → step s = .next { s with inbox := rest, mlen := v }) ∧
    (s.inbox = .regWrite 0x6 v :: rest → v ≤ s.cfg.strCap → step s = .next { s with inbox := rest, slen := v }) ∧
    (s.inbox = .regWrite 0x7 v :: rest → v ≤ s.cfg.pixCap → step s = .next { s with inbox := rest, pos := v })

/-- A RegRead answers the register's value, zero-extended to 32 bits, and changes nothing: STATUS as ERR in [2:0] and
DET in [3], BVR as BV in [7:0] and BVLEN in [11:8] (60_exceptions.md section 5; 10_state.md section 3). KLEN must fit
32 bits: where it does not, the answer is the model's free value (log entry 7). -/
def Obligations.HostRegisterReadAnswersFields : Prop :=
  ∀ (s : State) (r n : Nat) (rest : List HostOp), s.Inv → s.faultMark = false → s.inbox = .regRead r :: rest →
    s.registerNumber r = some n → (r = 0x4 → s.klen < 2 ^ 32) →
      ∃ x : Word, x.toNat = n ∧ step s = .next { s with inbox := rest, outbox := x :: s.outbox }

/-- A MemWrite of a legal value at an index that exists sets that element and nothing else, and the read that follows
answers it; a MemRead of an element nothing has written is the model fault (60_exceptions.md section 5;
20_memory.md section 1). -/
def Obligations.HostMemoryWriteThenRead : Prop :=
  ∀ (s : State) (m : MemId) (i v : Nat) (rest : List HostOp), s.faultMark = false → i < capacity s.cfg m →
    (v < (if m = .pix then 2 ^ 32 else 2 ^ 8) → s.inbox = .memWrite m i v :: .memRead m i :: rest →
      ∃ t, step s = .next t ∧ t.element m i = some (BitVec.ofNat 32 v) ∧
        (∀ m' j, (m', j) ≠ (m, i) → t.element m' j = s.element m' j) ∧
        t = { s with key := t.key, msg := t.msg, str := t.str, pix := t.pix, inbox := .memRead m i :: rest } ∧
        step t = .next { t with inbox := rest, outbox := BitVec.ofNat 32 v :: s.outbox }) ∧
    (s.inbox = .memRead m i :: rest → s.element m i = none → step s = .fault (.unwritten m i))

/-- R190, R34: Reset, from any state, leaves every register at 0, every memory element unwritten and the fault
mark clear. -/
def Obligations.ResetOperationClearsEverything : Prop :=
  ∀ (s : State) (rest : List HostOp), s.inbox = .reset :: rest →
    ∃ t, step s = .next t ∧ t.err = .none ∧ t.det = false ∧ t.statusWord = 0#32 ∧ t.width = 0 ∧ t.height = 0 ∧
      t.klen = 0 ∧ t.mlen = 0 ∧ t.slen = 0 ∧ t.pos = 0 ∧ t.bv = 0#8 ∧ t.bvlen = 0 ∧ t.res = 0#32 ∧ t.res2 = 0#32 ∧
      (∀ m i, t.element m i = none) ∧ t.faultMark = false ∧
      t = { State.resetOf s.cfg with inbox := rest, outbox := s.outbox }

/-- R185: each host protocol violation is refused. -/
def Obligations.HostViolationsAreRefused : Prop :=
  ∀ (s : State) (rest : List HostOp), s.faultMark = false →
    (∀ r v, s.inbox = .regWrite r v :: rest → (r = 0x1 ∨ r = 0x8 ∨ r = 0x9 ∨ r = 0xA ∨ 0xB ≤ r) →
      ∃ x, step s = .refused x) ∧
    (∀ r, s.inbox = .regRead r :: rest → (r = 0x0 ∨ 0xB ≤ r) → ∃ x, step s = .refused x) ∧
    (∀ r v, s.inbox = .regWrite r v :: rest →
      ((r = 0x0 ∧ 2 ^ 32 ≤ v) ∨ (r = 0x2 ∧ s.cfg.maxW < v) ∨ (r = 0x3 ∧ s.cfg.maxH < v) ∨
        (r = 0x4 ∧ s.cfg.keyCap < v) ∨ (r = 0x5 ∧ s.cfg.msgCap < v) ∨ (r = 0x6 ∧ s.cfg.strCap < v) ∨
        (r = 0x7 ∧ s.cfg.pixCap < v)) → ∃ x, step s = .refused x) ∧
    (∀ m i v, s.inbox = .memWrite m i v :: rest → capacity s.cfg m ≤ i → ∃ x, step s = .refused x) ∧
    (∀ m i, s.inbox = .memRead m i :: rest → capacity s.cfg m ≤ i → ∃ x, step s = .refused x) ∧
    (∀ m i v, s.inbox = .memWrite m i v :: rest → m ≠ .pix → 255 < v → ∃ x, step s = .refused x)

/-- R57: a register or memory read has no side effect, and repeating it gives the same value whatever reads stand
between: in every state that differs in the host's queues alone it answers the same. -/
def Obligations.HostReadsHaveNoSideEffect : Prop :=
  ∀ (s t : State) (op : HostOp) (rest : List HostOp),
    ((∃ r, op = .regRead r) ∨ (∃ m i, op = .memRead m i)) → s.inbox = op :: rest → step s = .next t →
      ∃ v, t = { s with inbox := rest, outbox := v :: s.outbox } ∧
        ∀ later answers, step { s with inbox := op :: later, outbox := answers } =
          .next { s with inbox := later, outbox := v :: answers }

/-- A model fault records the fault mark, a marked state goes nowhere but through Reset, and no step ends in a marked
state (60_exceptions.md sections 1 and 5; that a marked state stops at once is the model's choice, log entry 4). -/
def Obligations.FaultMarkedStateOnlyResets : Prop :=
  (∀ s f, step s = .fault f → s.recorded.faultMark = true) ∧
  (∀ s : State, s.faultMark = true → (∀ rest, s.inbox ≠ .reset :: rest) →
    step s = .fault .faultMarked ∧ s.recorded.faultMark = true) ∧
  (∀ s t, step s = .next t → t.faultMark = false)

/-! ### The invariant -/

/-- Every step keeps the invariant: legal register values, a legal bit sequence, canonical memories within their
capacities. -/
def Obligations.StepKeepsInvariant : Prop :=
  ∀ s t : State, s.Inv → step s = .next t → t.Inv

/-- The invariant holds after reset, in every conforming configuration. -/
def Obligations.ResetMeetsInvariant : Prop :=
  (∀ c : Config, c.Conforming → (State.resetOf c).Inv) ∧ State.reset.Inv

/-- The first sentence of R52: no command reads or writes an element that does not exist. The one fault of a command is that of an element
nothing has written, and a command is never refused. -/
def Obligations.CommandsFaultOnlyOnUnwritten : Prop :=
  ∀ (i : Instr) (s : State), s.Inv →
    (∀ f, exec i s = .fault f → ∃ m k, f = .unwritten m k ∧ k < capacity s.cfg m ∧ s.element m k = none) ∧
    (∀ r, exec i s ≠ .refused r)

/-! ### Whole-machine frames -/

/-- What commands write at most: the registers of the column "written by commands" of 10_state.md section 3, and of the
four memories those each command's own rule writes (the command sections of 41_cipher.md to 45_orchestration.md).
No command writes WIDTH, HEIGHT, KLEN or KEY. -/
def Obligations.CommandsWriteOnlyTheirRegisters : Prop :=
  ∀ (i : Instr) (s t : State), exec i s = .next t →
    (t.cfg = s.cfg ∧ t.width = s.width ∧ t.height = s.height ∧ t.klen = s.klen ∧ t.key = s.key ∧
      t.faultMark = s.faultMark ∧ t.inbox = s.inbox ∧ t.outbox = s.outbox) ∧
    (i ≠ .crypt 1#1 → i ≠ .showCmd → t.mlen = s.mlen ∧ t.msg = s.msg) ∧
    (i ∉ [.crypt 0#1, .frombits, .frame, .detect, .hide, .showCmd] → t.slen = s.slen) ∧
    (i ∉ [.crypt 0#1, .frombits, .frame, .hide, .showCmd] → t.str = s.str) ∧
    ((∀ v, i ≠ .wrbit v) → i ≠ .hide → t.pix = s.pix) ∧
    ((∀ v, i ≠ .wrbit v) → i ≠ .rdbit → i ≠ .hide → i ≠ .showCmd → t.pos = s.pos) ∧
    ((∀ b, i ≠ .tobits b) → i ≠ .frombits → i ≠ .rdbit → t.bv = s.bv ∧ t.bvlen = s.bvlen) ∧
    ((∀ idx b, i ≠ .xorb idx b) → (∀ v, i ≠ .wrbit v) → i ∉ [.frombits, .capchk, .rdbit, .map, .hide] →
      t.res = s.res) ∧
    ((∀ v, i ≠ .wrbit v) → i ∉ [.capchk, .map, .hide] → t.res2 = s.res2) ∧
    (i ≠ .detect → i ≠ .showCmd → t.det = s.det)

/-- R66: only WRBIT and HIDE write PIX, and only at bit 0 of words below WIDTH * HEIGHT. -/
def Obligations.OnlyWrbitAndHideWritePix : Prop :=
  ∀ (i : Instr) (s t : State), exec i s = .next t →
    ((∀ v, i ≠ .wrbit v) → i ≠ .hide → t.pix = s.pix) ∧
    (∀ k, s.width * s.height ≤ k → t.pix.read k = s.pix.read k) ∧
    (∀ k c, s.pix.read k = some c → ∃ c', t.pix.read k = some c' ∧ c' >>> 1 = c >>> 1) ∧
    (∀ k, s.pix.read k = none → t.pix.read k = none)

/-- R24: STATUS.ERR is not sticky. A command starts and ends the same whatever ERR holds, and it writes ERR: NONE, or
a code of the column "raised by" of 60_exceptions.md section 1 (when it writes which, the statement of each command
says). STATUS.DET keeps its value through every command except DETECT and SHOW. -/
def Obligations.ErrIsWrittenByEveryCommandAndDetIsKept : Prop :=
  (∀ (i : Instr) (s : State) (e : ErrCode), exec i { s with err := e } = exec i s) ∧
  (∀ (i : Instr) (s t : State), exec i s = .next t → i ≠ .detect → i ≠ .showCmd → t.det = s.det) ∧
  ∀ (i : Instr) (s t : State), exec i s = .next t →
    match i with
    | .crypt d => t.err = .none ∨ (d = 1#1 ∧ t.err = .overflow)
    | .xorb _ _ => t.err = .none
    | .tobits _ => t.err = .none
    | .frombits => t.err = .none ∨ t.err = .bitcount ∨ t.err = .overflow
    | .frame => t.err = .none ∨ t.err = .overflow
    | .detect => t.err = .none
    | .capchk => t.err = .none ∨ t.err = .capacity
    | .wrbit _ => t.err = .none ∨ t.err = .capacity
    | .rdbit => t.err = .none ∨ t.err = .bitcount ∨ t.err = .capacity
    | .map => t.err = .none ∨ t.err = .capacity
    | .hide => t.err = .none ∨ t.err = .capacity
    | .showCmd => t.err = .none ∨ t.err = .noframe ∨ t.err = .overflow

/-! ### The commands, one statement each: encoding, result, errors, model faults and frame -/

/-- CRYPT d (41_cipher.md section 2, rule R101). The two model-fault clauses take the data byte before the key byte
of the same index: that order is the model's reading (log entry 6), not the rule's words. -/
def Obligations.CryptCiphersWholeBuffer : Prop :=
  encode (.crypt 0#1) = 0x10000000#32 ∧ encode (.crypt 1#1) = 0x10000001#32 ∧
  ∀ s : State, s.Inv →
    (∀ m key, s.HasMessage m → s.HasKey m.length key →
      ∃ t, exec (.crypt 0#1) s = .next t ∧ t.str.Holds (crypt m key) ∧
        (∀ k, m.length ≤ k → t.str.read k = s.str.read k) ∧
        t = { s with str := t.str, slen := s.mlen, err := .none }) ∧
    (∀ x key, s.slen ≤ s.cfg.msgCap → s.HasStream x → s.HasKey x.length key →
      ∃ t, exec (.crypt 1#1) s = .next t ∧ t.msg.Holds (crypt x key) ∧
        (∀ k, x.length ≤ k → t.msg.read k = s.msg.read k) ∧
        t = { s with msg := t.msg, mlen := s.slen, err := .none }) ∧
    (s.cfg.msgCap < s.slen → exec (.crypt 1#1) s = .next { s with err := .overflow }) ∧
    (∀ p k, s.firstUnwritten (cryptReads .msg s.klen s.mlen 0) = some (p, k) →
      exec (.crypt 0#1) s = .fault (.unwritten p k)) ∧
    (∀ p k, s.slen ≤ s.cfg.msgCap → s.firstUnwritten (cryptReads .str s.klen s.slen 0) = some (p, k) →
      exec (.crypt 1#1) s = .fault (.unwritten p k))

/-- R102, XORB idx, b. -/
def Obligations.XorbCiphersOneByte : Prop :=
  ∀ (s : State) (idx : Nat) (b : Byte), s.Inv →
    (idx < 2 ^ 20 →
      encode (.xorb idx b) = 0x20000000#32 ||| (BitVec.ofNat 32 idx <<< 8) ||| b.zeroExtend 32) ∧
    (s.klen = 0 → exec (.xorb idx b) s = .next { s with res := b.zeroExtend 32, err := .none }) ∧
    (∀ k, s.klen ≠ 0 → s.key.read (idx % s.klen) = some k →
      exec (.xorb idx b) s = .next { s with res := (b ^^^ k).zeroExtend 32, err := .none }) ∧
    (s.klen ≠ 0 → s.key.read (idx % s.klen) = none →
      exec (.xorb idx b) s = .fault (.unwritten .key (idx % s.klen)))

/-- R112, TOBITS b: the sequence is the byte's bits, most significant first. -/
def Obligations.TobitsLoadsBitSequence : Prop :=
  ∀ (s : State) (b : Byte),
    encode (.tobits b) = 0x30000000#32 ||| b.zeroExtend 32 ∧
    ∃ t, exec (.tobits b) s = .next t ∧ t = { s with bv := b, bvlen := 8, err := .none } ∧
      t.bitSeq = (List.range 8).map fun j => BitVec.ofBool (b.getLsbD (7 - j))

/-- R113, FROMBITS. -/
def Obligations.FrombitsAppendsByte : Prop :=
  encode .frombits = 0x40000000#32 ∧
  ∀ s : State, s.Inv →
    (s.bvlen ≠ 8 → exec .frombits s = .next { s with err := .bitcount }) ∧
    (s.bvlen = 8 → s.slen = s.cfg.strCap → exec .frombits s = .next { s with err := .overflow }) ∧
    (s.bvlen = 8 → s.slen ≠ s.cfg.strCap →
      ∃ t, exec .frombits s = .next t ∧ t.str.read s.slen = some s.bv ∧
        (∀ k, k ≠ s.slen → t.str.read k = s.str.read k) ∧
        t = { s with str := t.str, slen := s.slen + 1, res := s.bv.zeroExtend 32, bv := 0x00#8, bvlen := 0,
                     err := .none })

/-- R122, FRAME. -/
def Obligations.FrameAppendsMarker : Prop :=
  encode .frame = 0x50000000#32 ∧
  ∀ s : State, s.Inv →
    (s.cfg.strCap < s.slen + 3 → exec .frame s = .next { s with err := .overflow }) ∧
    (s.slen + 3 ≤ s.cfg.strCap →
      ∃ t, exec .frame s = .next t ∧
        t.str.read s.slen = some 0x00#8 ∧ t.str.read (s.slen + 1) = some 0x00#8 ∧
        t.str.read (s.slen + 2) = some 0x03#8 ∧
        (∀ k, k < s.slen ∨ s.slen + 3 ≤ k → t.str.read k = s.str.read k) ∧
        t = { s with str := t.str, slen := s.slen + 3, err := .none } ∧
        ∀ x, s.HasStream x → t.HasStream (frame x)) ∧
    (s.slen ≤ s.cfg.msgCap → s.slen + 3 ≤ s.cfg.strCap)

/-- R123, DETECT. -/
def Obligations.DetectStripsMarker : Prop :=
  encode .detect = 0x60000000#32 ∧
  ∀ s : State, s.Inv →
    (s.slen < 3 → exec .detect s = .next { s with det := false, err := .none }) ∧
    (∀ t0 t1 t2, 3 ≤ s.slen → s.str.read (s.slen - 3) = some t0 → s.str.read (s.slen - 2) = some t1 →
      s.str.read (s.slen - 1) = some t2 →
      exec .detect s = .next
        (if t0 = 0x00#8 ∧ t1 = 0x00#8 ∧ t2 = 0x03#8 then { s with slen := s.slen - 3, det := true, err := .none }
         else { s with det := false, err := .none })) ∧
    (∀ p k, 3 ≤ s.slen →
      s.firstUnwritten [(.str, s.slen - 3), (.str, s.slen - 2), (.str, s.slen - 1)] = some (p, k) →
      exec .detect s = .fault (.unwritten p k))

/-- R140, CAPCHK, with the comparison of R130 on exact naturals. -/
def Obligations.CapchkComparesNeedWithCapacity : Prop :=
  encode .capchk = 0x70000000#32 ∧
  ∀ s : State, s.Inv →
    ∃ t, exec .capchk s = .next t ∧ t.res.toNat = s.slen * 8 ∧ t.res2.toNat = s.width * s.height ∧
      t = { s with res := t.res, res2 := t.res2,
                   err := if s.slen * 8 ≤ s.width * s.height then .none else .capacity }

/-- R141, WRBIT v: the word written is that of pixel map(POS), `POS div WIDTH * WIDTH + POS mod WIDTH`. -/
def Obligations.WrbitWritesCarrierBit : Prop :=
  encode (.wrbit 0#1) = 0x80000000#32 ∧ encode (.wrbit 1#1) = 0x80000001#32 ∧
  ∀ (s : State) (v : Bit), s.Inv →
    (s.width * s.height ≤ s.pos → exec (.wrbit v) s = .next { s with err := .capacity }) ∧
    (∀ c, s.pos < s.width * s.height → s.pix.read s.carrierWord = some c →
      let c' := if v = 1#1 then c ||| 0x00000001#32 else c &&& 0xFFFFFFFE#32
      ∃ t, exec (.wrbit v) s = .next t ∧ t.pix.read s.carrierWord = some c' ∧
        (∀ k, k ≠ s.carrierWord → t.pix.read k = s.pix.read k) ∧
        t = { s with pix := t.pix, res := c', res2 := c, pos := s.pos + 1, err := .none }) ∧
    (s.pos < s.width * s.height → s.pix.read s.carrierWord = none →
      exec (.wrbit v) s = .fault (.unwritten .pix s.pos)) ∧
    (s.pos < s.width * s.height → s.carrierWord = s.pos)

/-- R142, RDBIT: the carrier bit is appended to the bit sequence. -/
def Obligations.RdbitAppendsCarrierBit : Prop :=
  encode .rdbit = 0x90000000#32 ∧
  ∀ s : State, s.Inv →
    (s.bvlen = 8 → exec .rdbit s = .next { s with err := .bitcount }) ∧
    (s.bvlen ≠ 8 → s.width * s.height ≤ s.pos → exec .rdbit s = .next { s with err := .capacity }) ∧
    (∀ c, s.bvlen ≠ 8 → s.pos < s.width * s.height → s.pix.read s.carrierWord = some c →
      ∃ t, exec .rdbit s = .next t ∧ t.bv.toNat = 2 * s.bv.toNat + c.toNat % 2 ∧
        t.res.toNat = c.toNat % 2 ∧ t.bitSeq = s.bitSeq ++ [BitVec.ofBool (c.getLsbD 0)] ∧
        t = { s with bv := t.bv, bvlen := s.bvlen + 1, res := t.res, pos := s.pos + 1, err := .none }) ∧
    (s.bvlen ≠ 8 → s.pos < s.width * s.height → s.pix.read s.carrierWord = none →
      exec .rdbit s = .fault (.unwritten .pix s.pos))

/-- R143, MAP: no division by zero, because WIDTH > 0 below WIDTH * HEIGHT. -/
def Obligations.MapGivesRasterPosition : Prop :=
  encode .map = 0xA0000000#32 ∧
  ∀ s : State, s.Inv →
    (s.width * s.height ≤ s.pos → exec .map s = .next { s with err := .capacity }) ∧
    (s.pos < s.width * s.height →
      0 < s.width ∧ ∃ t, exec .map s = .next t ∧ t.res.toNat = s.pos % s.width ∧
        t.res2.toNat = s.pos / s.width ∧ t = { s with res := t.res, res2 := t.res2, err := .none })

/-- HIDE (45_orchestration.md section 1, rule R150): the end states on success and on CAPACITY, and its model faults.
Bit k of the framed stream is bit 7 - (k mod 8) of byte k div 8. The model-fault clause takes the data byte before the
key byte of the same index: that order is the model's reading (log entry 6), not the rule's words. -/
def Obligations.HideEmbedsFramedCiphertext : Prop :=
  encode .hide = 0xB0000000#32 ∧
  ∀ s : State, s.Inv →
    (∀ m key, s.HasMessage m → s.HasKey m.length key →
      let x := crypt m key ++ [0x00#8, 0x00#8, 0x03#8]
      let need := (s.mlen + 3) * 8
      (s.width * s.height < need →
        ∃ t, exec .hide s = .next t ∧ t.str.Holds x ∧ (∀ k, s.mlen + 3 ≤ k → t.str.read k = s.str.read k) ∧
          t = { s with str := t.str, slen := s.mlen + 3, res := BitVec.ofNat 32 need,
                       res2 := BitVec.ofNat 32 (s.width * s.height), err := .capacity }) ∧
      (need ≤ s.width * s.height → s.GridLoaded need →
        ∃ t, exec .hide s = .next t ∧ t.str.Holds x ∧ (∀ k, s.mlen + 3 ≤ k → t.str.read k = s.str.read k) ∧
          (∀ k c, k < need → s.pix.read k = some c →
            t.pix.read k = some (writeBit c ((x.getD (k / 8) 0x00#8).extractLsb' (7 - k % 8) 1))) ∧
          (∀ k, need ≤ k → t.pix.read k = s.pix.read k) ∧
          t = { s with str := t.str, pix := t.pix, slen := s.mlen + 3, pos := need, res := BitVec.ofNat 32 need,
                       res2 := BitVec.ofNat 32 (s.width * s.height), err := .none })) ∧
    (∀ p k,
      s.firstUnwritten (cryptReads .msg s.klen s.mlen 0 ++
        (if (s.mlen + 3) * 8 ≤ s.width * s.height then pixReads ((s.mlen + 3) * 8) 0 else [])) = some (p, k) →
      exec .hide s = .fault (.unwritten p k))

/-- R160, SHOW: the end states on success, NOFRAME and OVERFLOW, and its model faults. `x` is the raw stream before
the first marker, or all whole bytes of the grid where there is none. -/
def Obligations.ShowDecodesUpToFirstMarker : Prop :=
  encode .showCmd = 0xC0000000#32 ∧
  ∀ (s : State) (x : List Byte), s.Inv →
    ((x.length + 3) * 8 ≤ s.width * s.height → s.GridSpells (frame x) → NoMarkerUpTo (x.length + 2) (frame x) →
      (x.length ≤ s.cfg.msgCap →
        (∀ key, s.HasKey x.length key →
          ∃ t, exec .showCmd s = .next t ∧ t.str.Holds (frame x) ∧
            (∀ k, x.length + 3 ≤ k → t.str.read k = s.str.read k) ∧ t.msg.Holds (crypt x key) ∧
            (∀ k, x.length ≤ k → t.msg.read k = s.msg.read k) ∧
            t = { s with str := t.str, msg := t.msg, slen := x.length, mlen := x.length, pos := (x.length + 3) * 8,
                         det := true, err := .none }) ∧
        (∀ p k, s.klen ≠ 0 →
          s.firstUnwritten ((List.range x.length).map fun i => (.key, i % s.klen)) = some (p, k) →
          exec .showCmd s = .fault (.unwritten p k))) ∧
      (s.cfg.msgCap < x.length →
        ∃ t, exec .showCmd s = .next t ∧ t.str.Holds (frame x) ∧
          (∀ k, x.length + 3 ≤ k → t.str.read k = s.str.read k) ∧
          t = { s with str := t.str, slen := x.length, pos := (x.length + 3) * 8, det := true,
                       err := .overflow })) ∧
    (s.GridSpells x → NoMarkerUpTo x.length x →
      (x.length = s.width * s.height / 8 →
        ∃ t, exec .showCmd s = .next t ∧ t.str.Holds x ∧ (∀ k, x.length ≤ k → t.str.read k = s.str.read k) ∧
          t = { s with str := t.str, slen := x.length, pos := 8 * x.length, det := false, err := .noframe }) ∧
      (∀ p k, (x.length + 1) * 8 ≤ s.width * s.height →
        s.firstUnwritten (pixReads 8 (x.length * 8)) = some (p, k) →
        exec .showCmd s = .fault (.unwritten p k)))

/-! ### The pure functions -/

/-- R103: `crypt` preserves length, is an involution, is the identity for an empty key, and byte i of its result
depends only on `m[i]`, `len(k)` and `k[i mod len(k)]`. -/
def Obligations.CryptLaws : Prop :=
  ∀ m k : List Byte,
    (crypt m k).length = m.length ∧ crypt (crypt m k) k = m ∧ crypt m [] = m ∧
    ∀ (m' k' : List Byte) (i : Nat), i < m.length → i < m'.length → m[i]? = m'[i]? → k.length = k'.length →
      k[i % k.length]? = k'[i % k.length]? → (crypt m k)[i]? = (crypt m' k')[i]?

/-- R114, and the sum of R111: `fromBits` is the sum of `s_j * 2^(7-j)`, and `toBits` and `fromBits` are inverse to each other. -/
def Obligations.BitCodecRoundTrips : Prop :=
  (∀ b : Byte, fromBits (toBits b) = b) ∧
  (∀ s : List Bit, s.length = 8 → toBits (fromBits s) = s) ∧
  (∀ s0 s1 s2 s3 s4 s5 s6 s7 : Bit, (fromBits [s0, s1, s2, s3, s4, s5, s6, s7]).toNat =
    s0.toNat * 2 ^ 7 + s1.toNat * 2 ^ 6 + s2.toNat * 2 ^ 5 + s3.toNat * 2 ^ 4 + s4.toNat * 2 ^ 3 +
      s5.toNat * 2 ^ 2 + s6.toNat * 2 + s7.toNat)

/-- R121: `eomAt` is in-order equality of the last three bytes with the marker; comparing both sides reversed gives the
same answer. -/
def Obligations.EomAtIsTrailingEquality : Prop :=
  ∀ s : List Byte,
    (eomAt s = true ↔ ∃ x, s = x ++ [0x00#8, 0x00#8, 0x03#8]) ∧
    (eomAt s = true ↔ s.reverse.take 3 = [0x00#8, 0x00#8, 0x03#8].reverse)

/-- The end of R125: a stream without the marker does not stop early once it is framed, whatever it ends in
(43_framer.md section 1). -/
def Obligations.MarkerFreeStreamStopsOnlyAtItsEnd : Prop :=
  ∀ x : List Byte, MarkerFree x → NoMarkerUpTo (x.length + 2) (frame x) ∧ eomAt (frame x) = true

/-- R134: the laws of writeBit, readBit and map; `readBit` is also `c AND 1` (R132). -/
def Obligations.PixelFunctionLaws : Prop :=
  (∀ (c : Word) (v : Bit), readBit (writeBit c v) = v ∧
    (writeBit c v ^^^ c = 0#32 ∨ writeBit c v ^^^ c = 1#32) ∧ writeBit c (readBit c) = c ∧
    writeBit (writeBit c v) v = writeBit c v ∧ (readBit c).zeroExtend 32 = c &&& 1#32) ∧
  (∀ w h : Nat,
    (∀ p, p < w * h → (mapPos p w).x < w ∧ (mapPos p w).y < h) ∧
    (∀ p q, p < w * h → q < w * h → (mapPos p w).x = (mapPos q w).x → (mapPos p w).y = (mapPos q w).y → p = q) ∧
    (∀ x y, x < w → y < h → ∃ p, p < w * h ∧ (mapPos p w).x = x ∧ (mapPos p w).y = y))

/-- R133: the scan order is row-major, and its pixel stands in PIX word `pos`. -/
def Obligations.ScanOrderIsRowMajor : Prop :=
  ∀ w h pos : Nat, pos < w * h →
    0 < w ∧ mapPos pos w = { x := pos % w, y := pos / w, bit := 0 } ∧ pixelWord (mapPos pos w) w = pos

/-! ### The pipelines -/

/-- R152: HIDE then SHOW gives the message back when the ciphertext is free of the marker, and otherwise the part of
the message before the first marker in the ciphertext (t is the index its window ends at, so n = t + 1). -/
def Obligations.HideThenShowRoundTrip : Prop :=
  ∀ (s : State) (m key : List Byte), s.Inv → s.HasMessage m → s.HasKey m.length key →
    (m.length + 3) * 8 ≤ s.width * s.height → s.GridLoaded (s.width * s.height) →
    ∃ t u, exec .hide s = .next t ∧ exec .showCmd t = .next u ∧ u.err = .none ∧ u.det = true ∧
      (MarkerFree (crypt m key) → u.mlen = m.length ∧ u.msg.Holds m) ∧
      (∀ n, n ≤ m.length → eomAt ((crypt m key).take n) = true →
        (∀ k, k < n → eomAt ((crypt m key).take k) = false) →
        u.mlen = n - 3 ∧ u.msg.Holds (m.take (n - 3)))

/-- R153: HIDE succeeds exactly when the framed message fits the grid, and no PIX word changes when it fails. -/
def Obligations.HideCapacityBoundary : Prop :=
  ∀ (s : State) (m key : List Byte), s.Inv → s.HasMessage m → s.HasKey m.length key →
    s.GridLoaded (s.width * s.height) →
    ∃ t, exec .hide s = .next t ∧ (t.err = .none ↔ (s.mlen + 3) * 8 ≤ s.width * s.height) ∧
      (t.err ≠ .none → t.err = .capacity ∧ t.pix = s.pix)

/-- R151: HIDE changes no pixel other than PIX[0..need), and in those only bit 0. -/
def Obligations.HideChangesOnlyCarrierBits : Prop :=
  ∀ s t : State, exec .hide s = .next t →
    (∀ k, (s.mlen + 3) * 8 ≤ k → t.pix.read k = s.pix.read k) ∧
    (∀ k c, s.pix.read k = some c →
      ∃ c', t.pix.read k = some c' ∧ (c' ^^^ c = 0#32 ∨ c' ^^^ c = 1#32))

/-- R161: the key changes neither the raw bytes SHOW decodes nor where it stops, and a wrong key gives
`crypt(crypt(m, K), K')`, which differs from m exactly where the key bytes differ. -/
def Obligations.ShowWithWrongKey : Prop :=
  (∀ (s t t' : State) (n : Nat) (key' : Memory 8), exec .showCmd s = .next t →
    exec .showCmd { s with klen := n, key := key' } = .next t' →
      t'.str = t.str ∧ t'.slen = t.slen ∧ t'.pos = t.pos ∧ t'.det = t.det ∧ t'.err = t.err) ∧
  (∀ (s : State) (m key key' : List Byte), s.Inv → (m.length + 3) * 8 ≤ s.width * s.height →
    s.GridSpells (frame (crypt m key)) → MarkerFree (crypt m key) → m.length ≤ s.cfg.msgCap →
    s.HasKey m.length key' →
    let keyByte := fun (k : List Byte) (i : Nat) => if k.length = 0 then 0x00#8 else k.getD (i % k.length) 0x00#8
    ∃ t, exec .showCmd s = .next t ∧ t.err = .none ∧ t.mlen = m.length ∧
      t.msg.Holds (crypt (crypt m key) key') ∧
      ∀ (i : Nat) (h : i < m.length),
        t.msg.read i = some (m[i] ^^^ keyByte key i ^^^ keyByte key' i) ∧
        (t.msg.read i = some m[i] ↔ keyByte key i = keyByte key' i))

/-- R162: SHOW never overflows STR and always terminates: its loop appends at most floor(W*H / 8) bytes, a bound that
is at most STR_CAP, more iterations than the model allows it would change nothing, and it never reaches a STR element
that does not exist. -/
def Obligations.ShowLoopIsBounded : Prop :=
  ∀ s : State, s.Inv →
    s.width * s.height / 8 ≤ s.cfg.strCap ∧
    (∀ n, s.showBound ≤ n → showLoop n { s with slen := 0, pos := 0, det := false } =
      showLoop s.showBound { s with slen := 0, pos := 0, det := false }) ∧
    (∀ t, exec .showCmd s = .next t → t.pos % 8 = 0 ∧ t.pos / 8 ≤ s.width * s.height / 8) ∧
    (∀ k, exec .showCmd s ≠ .fault (.noSuchElement .str k))

/-- The first half of R154: a HIDE that ends with NONE is CRYPT 0, FRAME, CAPCHK and one WRBIT per framed bit from POS = 0, but for RES and
RES2 (45_orchestration.md section 3). -/
def Obligations.HideIsItsPrimitiveSequence : Prop :=
  ∀ (s t : State) (m key : List Byte), s.Inv → s.HasMessage m → s.HasKey m.length key → s.pos = 0 →
    exec .hide s = .next t → t.err = .none →
    ∃ u, runCommands ([.crypt 0#1, .frame, .capchk] ++ (streamBits (frame (crypt m key))).map .wrbit) s = .next u ∧
      t = { u with res := t.res, res2 := t.res2 }

/-- The second half of R154 for a SHOW that ends with NONE: SHOW, from SLEN = 0, POS = 0 and an empty bit sequence, is RDBIT x 8, FROMBITS, DETECT
repeated until DET = 1, then CRYPT 1, but for RES (45_orchestration.md section 3). -/
def Obligations.ShowIsItsPrimitiveSequence : Prop :=
  ∀ s t : State, s.Inv → s.slen = 0 → s.pos = 0 → s.bvlen = 0 → exec .showCmd s = .next t → t.err = .none →
    (∀ n, 1 ≤ n → n < t.slen + 3 →
      ∃ v, runCommands (List.replicate n decodePass).flatten s = .next v ∧ v.det = false) ∧
    ∃ u, runCommands ((List.replicate (t.slen + 3) decodePass).flatten ++ [.crypt 1#1]) s = .next u ∧
      t = { u with res := t.res }

/-- Eight RDBITs from an empty bit sequence leave in BV the byte whose bits, most significant first, the eight carrier
bits are, and a ninth ends with BITCOUNT (44_pixelchannel.md section 4). -/
def Obligations.EightRdbitsAssembleByte : Prop :=
  ∀ (s : State) (b : Byte), s.Inv → s.bvlen = 0 → s.pos + 8 ≤ s.width * s.height →
    (∀ j, j < 8 → (s.pix.read (s.pos + j)).map readBit = some (BitVec.ofBool (b.getLsbD (7 - j)))) →
    ∃ t, runCommands (List.replicate 8 .rdbit) s = .next t ∧
      t = { s with bv := b, bvlen := 8, res := (b &&& 1#8).zeroExtend 32, pos := s.pos + 8, err := .none } ∧
      exec .rdbit t = .next { t with err := .bitcount }

/-- On a grid without pixels (as after reset) HIDE, WRBIT and MAP end with CAPACITY, RDBIT too unless the bit sequence
is full, CAPCHK exactly when SLEN is not 0, and SHOW with NOFRAME (10_state.md section 7). -/
def Obligations.EmptyGridHasNoCapacity : Prop :=
  ∀ (s : State), s.Inv → s.width * s.height = 0 →
    (∀ m key, s.HasMessage m → s.HasKey m.length key →
      ∃ t, exec .hide s = .next t ∧ t.err = .capacity ∧ t.pix = s.pix ∧ t.pos = s.pos) ∧
    (∀ v, exec (.wrbit v) s = .next { s with err := .capacity }) ∧
    (s.bvlen ≠ 8 → exec .rdbit s = .next { s with err := .capacity }) ∧
    exec .map s = .next { s with err := .capacity } ∧
    (∃ t, exec .capchk s = .next t ∧ (t.err = .capacity ↔ s.slen ≠ 0) ∧ (t.err = .none ↔ s.slen = 0)) ∧
    exec .showCmd s = .next { s with slen := 0, pos := 0, det := false, err := .noframe }
end

