-- ==== Sys2Proof/Laws/Memory.lean ====
section
/-! SUPPORT. Reads after writes, and that every memory operation keeps the canonical form. -/

namespace Sys2Proof.Machine

variable {w : Nat}

@[simp] theorem Memory.read_nil (i : Nat) : Memory.read ([] : Memory w) i = none := rfl

theorem Memory.read_cons (a : Nat) (v : BitVec w) (rest : Memory w) (i : Nat) :
    Memory.read ((a, v) :: rest) i = if a = i then some v else Memory.read rest i := rfl

/-- A read after a write: the value written there, and what was there elsewhere. -/
theorem Memory.read_write (m : Memory w) (i j : Nat) (v : BitVec w) :
    (Memory.write m i v).read j = if j = i then some v else m.read j := by
  induction m with
  | nil => simp [Memory.write, Memory.read_cons, eq_comm]
  | cons c rest ih =>
    obtain ⟨a, x⟩ := c
    simp only [Memory.write]
    split
    · simp only [Memory.read_cons, eq_comm (a := i)]
    · split
      · subst_vars
        simp only [Memory.read_cons, eq_comm (a := j)]
        split <;> rfl
      · simp only [Memory.read_cons, ih]
        by_cases h : a = j
        · rw [if_pos h, if_neg (by omega), if_pos h]
        · rw [if_neg h, if_neg h]

@[simp] theorem Memory.read_write_same (m : Memory w) (i : Nat) (v : BitVec w) :
    (Memory.write m i v).read i = some v := by simp [Memory.read_write]

theorem Memory.read_write_other {i j : Nat} (h : j ≠ i) (m : Memory w) (v : BitVec w) :
    (Memory.write m i v).read j = m.read j := by simp [Memory.read_write, h]

theorem Memory.mem_write {m : Memory w} {i : Nat} {v : BitVec w} {c : Nat × BitVec w}
    (h : c ∈ Memory.write m i v) : c = (i, v) ∨ c ∈ m := by
  induction m with
  | nil => simpa [Memory.write] using h
  | cons d rest ih =>
    simp only [Memory.write] at h
    split at h
    · simpa using h
    · split at h
      · rcases List.mem_cons.mp h with h | h
        · exact .inl h
        · exact .inr (List.mem_cons_of_mem _ h)
      · rcases List.mem_cons.mp h with h | h
        · exact .inr (h ▸ List.mem_cons_self)
        · exact (ih h).imp_right (List.mem_cons_of_mem _)

theorem Memory.wf_cons {a : Nat} {v : BitVec w} {rest : Memory w} :
    Memory.wf ((a, v) :: rest) ↔ (∀ c ∈ rest, a < c.1) ∧ Memory.wf rest := by
  simp [Memory.wf, List.pairwise_cons]

/-- A write keeps the canonical form. -/
theorem Memory.write_wf {m : Memory w} (h : m.wf) (i : Nat) (v : BitVec w) : (Memory.write m i v).wf := by
  induction m with
  | nil => simp [Memory.write, Memory.wf]
  | cons c rest ih =>
    obtain ⟨a, x⟩ := c
    obtain ⟨hlt, hrest⟩ := Memory.wf_cons.mp h
    simp only [Memory.write]
    split
    · refine Memory.wf_cons.mpr ⟨fun d hd => ?_, h⟩
      rcases List.mem_cons.mp hd with rfl | hd
      · assumption
      · exact Nat.lt_trans ‹i < a› (hlt d hd)
    · split
      · subst_vars; exact Memory.wf_cons.mpr ⟨hlt, hrest⟩
      · refine Memory.wf_cons.mpr ⟨fun d hd => ?_, ih hrest⟩
        rcases Memory.mem_write hd with rfl | hd
        · simp; omega
        · exact hlt d hd

/-- A write of an element that exists keeps every listed index in range. -/
theorem Memory.write_inRange {m : Memory w} {cap i : Nat} (h : m.InRange cap) (hi : i < cap) (v : BitVec w) :
    (Memory.write m i v).InRange cap := fun _ hc => by
  rcases Memory.mem_write hc with rfl | hc
  · exact hi
  · exact h _ hc

theorem Memory.mem_of_read {m : Memory w} {i : Nat} {v : BitVec w} (h : m.read i = some v) : (i, v) ∈ m := by
  induction m with
  | nil => simp at h
  | cons c rest ih =>
    obtain ⟨a, x⟩ := c
    rw [Memory.read_cons] at h
    split at h
    · simp_all
    · exact List.mem_cons_of_mem _ (ih h)

/-- A written element exists. -/
theorem Memory.lt_of_read {m : Memory w} {cap i : Nat} {v : BitVec w} (hr : m.InRange cap)
    (h : m.read i = some v) : i < cap := hr _ (Memory.mem_of_read h)

theorem Memory.read_of_mem {m : Memory w} (hw : m.wf) {i : Nat} {v : BitVec w} (h : (i, v) ∈ m) :
    m.read i = some v := by
  induction m with
  | nil => simp at h
  | cons c rest ih =>
    obtain ⟨a, x⟩ := c
    obtain ⟨hlt, hrest⟩ := Memory.wf_cons.mp hw
    rw [Memory.read_cons]
    rcases List.mem_cons.mp h with h | h
    · simp_all
    · have := hlt _ h
      rw [if_neg (by simp at this; omega)]
      exact ih hrest h

/-- Equal memories are equal lists: two canonical memories that read alike are one. -/
theorem Memory.ext {m n : Memory w} (hm : m.wf) (hn : n.wf) (h : ∀ i, m.read i = n.read i) : m = n := by
  induction m generalizing n with
  | nil =>
    cases n with
    | nil => rfl
    | cons c rest => obtain ⟨a, x⟩ := c; simpa [Memory.read_cons] using h a
  | cons c rest ih =>
    obtain ⟨a, x⟩ := c
    cases n with
    | nil => simpa [Memory.read_cons] using h a
    | cons d rest' =>
      obtain ⟨b, y⟩ := d
      obtain ⟨hlt, hrest⟩ := Memory.wf_cons.mp hm
      obtain ⟨hlt', hrest'⟩ := Memory.wf_cons.mp hn
      have hab : a = b := by
        rcases Nat.lt_trichotomy a b with hab | hab | hab
        · have h1 := h a
          rw [Memory.read_cons, if_pos rfl, Memory.read_cons, if_neg (by omega)] at h1
          have := hlt' _ (Memory.mem_of_read h1.symm)
          simp at this; omega
        · exact hab
        · have h1 := h b
          rw [Memory.read_cons, if_neg (by omega), Memory.read_cons, if_pos rfl] at h1
          have := hlt _ (Memory.mem_of_read h1)
          simp at this; omega
      subst hab
      have hxy : x = y := by
        have h1 := h a
        rw [Memory.read_cons, if_pos rfl, Memory.read_cons, if_pos rfl] at h1
        exact Option.some.inj h1
      subst hxy
      congr 1
      refine ih hrest hrest' fun i => ?_
      by_cases hi : a = i
      · subst hi
        have none_of {r : Memory w} (hr : ∀ c ∈ r, a < c.1) : r.read a = none := by
          rcases hv : r.read a with _ | v
          · rfl
          · exact absurd (hr _ (Memory.mem_of_read hv)) (Nat.lt_irrefl _)
        rw [none_of hlt, none_of hlt']
      · have h1 := h i
        simpa [Memory.read_cons, hi] using h1

/-- Writing what an element already holds changes nothing. -/
theorem Memory.write_read_self {m : Memory w} (hm : m.wf) {i : Nat} {v : BitVec w} (h : m.read i = some v) :
    Memory.write m i v = m :=
  Memory.ext (Memory.write_wf hm i v) hm fun j => by
    rw [Memory.read_write]
    split
    · subst_vars; exact h.symm
    · rfl

end Sys2Proof.Machine
end

