-- ==== Sys2Proof/Laws/State.lean ====
section
/-! SUPPORT. One lemma per field for the state after reset, and the small lemmas of how a command ends, so that no
later proof unfolds a record update. (Lean reduces a projection of a record update by itself, so an update of one
field needs no lemma of its own.) -/

namespace Sys2Proof.Machine

variable {α : Type}

@[simp] theorem State.resetOf_cfg (c : Config) : (State.resetOf c).cfg = c := rfl
@[simp] theorem State.resetOf_err (c : Config) : (State.resetOf c).err = .none := rfl
@[simp] theorem State.resetOf_det (c : Config) : (State.resetOf c).det = false := rfl
@[simp] theorem State.resetOf_width (c : Config) : (State.resetOf c).width = 0 := rfl
@[simp] theorem State.resetOf_height (c : Config) : (State.resetOf c).height = 0 := rfl
@[simp] theorem State.resetOf_klen (c : Config) : (State.resetOf c).klen = 0 := rfl
@[simp] theorem State.resetOf_mlen (c : Config) : (State.resetOf c).mlen = 0 := rfl
@[simp] theorem State.resetOf_slen (c : Config) : (State.resetOf c).slen = 0 := rfl
@[simp] theorem State.resetOf_pos (c : Config) : (State.resetOf c).pos = 0 := rfl
@[simp] theorem State.resetOf_bv (c : Config) : (State.resetOf c).bv = 0x00#8 := rfl
@[simp] theorem State.resetOf_bvlen (c : Config) : (State.resetOf c).bvlen = 0 := rfl
@[simp] theorem State.resetOf_res (c : Config) : (State.resetOf c).res = 0x00000000#32 := rfl
@[simp] theorem State.resetOf_res2 (c : Config) : (State.resetOf c).res2 = 0x00000000#32 := rfl
@[simp] theorem State.resetOf_key (c : Config) : (State.resetOf c).key = [] := rfl
@[simp] theorem State.resetOf_msg (c : Config) : (State.resetOf c).msg = [] := rfl
@[simp] theorem State.resetOf_str (c : Config) : (State.resetOf c).str = [] := rfl
@[simp] theorem State.resetOf_pix (c : Config) : (State.resetOf c).pix = [] := rfl
@[simp] theorem State.resetOf_faultMark (c : Config) : (State.resetOf c).faultMark = false := rfl
@[simp] theorem State.resetOf_inbox (c : Config) : (State.resetOf c).inbox = [] := rfl
@[simp] theorem State.resetOf_outbox (c : Config) : (State.resetOf c).outbox = [] := rfl

@[simp] theorem recordCapacity_res (s : State) : (recordCapacity s).res = wordOf (s.slen * 8) := rfl
@[simp] theorem recordCapacity_res2 (s : State) : (recordCapacity s).res2 = wordOf s.gridBits := rfl
@[simp] theorem recordCapacity_cfg (s : State) : (recordCapacity s).cfg = s.cfg := rfl
@[simp] theorem recordCapacity_err (s : State) : (recordCapacity s).err = s.err := rfl
@[simp] theorem recordCapacity_det (s : State) : (recordCapacity s).det = s.det := rfl
@[simp] theorem recordCapacity_width (s : State) : (recordCapacity s).width = s.width := rfl
@[simp] theorem recordCapacity_height (s : State) : (recordCapacity s).height = s.height := rfl
@[simp] theorem recordCapacity_klen (s : State) : (recordCapacity s).klen = s.klen := rfl
@[simp] theorem recordCapacity_mlen (s : State) : (recordCapacity s).mlen = s.mlen := rfl
@[simp] theorem recordCapacity_slen (s : State) : (recordCapacity s).slen = s.slen := rfl
@[simp] theorem recordCapacity_pos (s : State) : (recordCapacity s).pos = s.pos := rfl
@[simp] theorem recordCapacity_bv (s : State) : (recordCapacity s).bv = s.bv := rfl
@[simp] theorem recordCapacity_bvlen (s : State) : (recordCapacity s).bvlen = s.bvlen := rfl
@[simp] theorem recordCapacity_key (s : State) : (recordCapacity s).key = s.key := rfl
@[simp] theorem recordCapacity_msg (s : State) : (recordCapacity s).msg = s.msg := rfl
@[simp] theorem recordCapacity_str (s : State) : (recordCapacity s).str = s.str := rfl
@[simp] theorem recordCapacity_pix (s : State) : (recordCapacity s).pix = s.pix := rfl
@[simp] theorem recordCapacity_faultMark (s : State) : (recordCapacity s).faultMark = s.faultMark := rfl
@[simp] theorem recordCapacity_inbox (s : State) : (recordCapacity s).inbox = s.inbox := rfl
@[simp] theorem recordCapacity_outbox (s : State) : (recordCapacity s).outbox = s.outbox := rfl

@[simp] theorem done_eq (s : State) : done s = .next { s with err := .none } := rfl
@[simp] theorem raise_eq (e : ErrCode) (s : State) : raise e s = .next { s with err := e } := rfl
@[simp] theorem andThen_ok (a : α) (k : α → Result) : andThen (.ok a) k = k a := rfl
@[simp] theorem andThen_error (f : Fault) (k : α → Result) : andThen (.error f) k = .fault f := rfl
@[simp] theorem finish_ok (s : State) : finish (.ok s) = .next { s with err := .none } := rfl
@[simp] theorem finish_error (f : Fault) : finish (.error f) = .fault f := rfl

/-- Everything `andThen` can do. -/
theorem andThen_eq_next {e : Except Fault α} {k : α → Result} {t : State} :
    andThen e k = .next t ↔ ∃ a, e = .ok a ∧ k a = .next t := by
  cases e <;> simp

/-- When a part of a command ends the command in a fault. -/
theorem andThen_eq_fault {e : Except Fault α} {k : α → Result} {f : Fault} :
    andThen e k = .fault f ↔ e = .error f ∨ ∃ a, e = .ok a ∧ k a = .fault f := by
  cases e <;> simp

theorem andThen_ne_refused {e : Except Fault α} {k : α → Result} {r : Refusal} (h : ∀ a, k a ≠ .refused r) :
    andThen e k ≠ .refused r := by
  cases e <;> simp_all

/-- Everything `finish` can do. -/
theorem finish_eq_next {e : Except Fault State} {t : State} :
    finish e = .next t ↔ ∃ u, e = .ok u ∧ t = { u with err := .none } := by
  cases e <;> simp [eq_comm]

theorem finish_eq_fault {e : Except Fault State} {f : Fault} : finish e = .fault f ↔ e = .error f := by
  cases e <;> simp

theorem finish_ne_refused {e : Except Fault State} {r : Refusal} : finish e ≠ .refused r := by
  cases e <;> simp

@[simp] theorem Except.ok_bind' {β : Type} (a : α) (k : α → Except Fault β) : (Except.ok a >>= k) = k a := rfl
@[simp] theorem Except.error_bind' {β : Type} (f : Fault) (k : α → Except Fault β) :
    ((Except.error f : Except Fault α) >>= k) = .error f := rfl

/-- Both parts of a computation that completes. -/
theorem bind_eq_ok {β : Type} {e : Except Fault α} {k : α → Except Fault β} {b : β} :
    (e >>= k) = .ok b ↔ ∃ a, e = .ok a ∧ k a = .ok b := by
  cases e <;> simp

/-- Which part of a computation faults. -/
theorem bind_eq_error {β : Type} {e : Except Fault α} {k : α → Except Fault β} {f : Fault} :
    (e >>= k) = .error f ↔ e = .error f ∨ ∃ a, e = .ok a ∧ k a = .error f := by
  cases e <;> simp

@[simp] theorem unlessMarked_clear {s : State} (h : s.faultMark = false) (r : Result) : unlessMarked s r = r := by
  simp [unlessMarked, h]

@[simp] theorem unlessMarked_marked {s : State} (h : s.faultMark = true) (r : Result) :
    unlessMarked s r = .fault .faultMarked := by
  simp [unlessMarked, h]

/-- Only an unmarked state goes on. -/
theorem unlessMarked_eq_next {s t : State} {r : Result} :
    unlessMarked s r = .next t ↔ s.faultMark = false ∧ r = .next t := by
  unfold unlessMarked; split <;> simp_all

end Sys2Proof.Machine
end

