-- ==== Sys2Proof/Laws/Ops.lean ====
section
/-! SUPPORT. One lemma per shared operation that says everything it can do: element accesses, the key byte, the
marker, and the loops of CRYPT, HIDE and SHOW as list equations. -/

namespace Sys2Proof.Machine

/-! ### Element accesses -/

section
variable {w : Nat} {m m' : Memory w} {cap i : Nat} {id : MemId} {v : BitVec w} {f : Fault}

theorem fetch_eq_ok : fetch m cap id i = .ok v ↔ i < cap ∧ m.read i = some v := by
  unfold fetch
  split
  · split <;> simp_all
  · simp_all

theorem fetch_eq_error : fetch m cap id i = .error f ↔
    (i < cap ∧ m.read i = none ∧ f = .unwritten id i) ∨ (cap ≤ i ∧ f = .noSuchElement id i) := by
  unfold fetch
  split
  · rename_i h
    have h' : ¬ cap ≤ i := by omega
    rcases m.read i with _ | v <;> simp [h, h', eq_comm]
  · rename_i h
    simp [h, Nat.le_of_not_lt h, eq_comm]

theorem fetch_of_read (hi : i < cap) (h : m.read i = some v) : fetch m cap id i = .ok v := fetch_eq_ok.mpr ⟨hi, h⟩

theorem fetch_unwritten (hi : i < cap) (h : m.read i = none) : fetch m cap id i = .error (.unwritten id i) :=
  fetch_eq_error.mpr (.inl ⟨hi, h, rfl⟩)

theorem store_eq_ok : store m cap id i v = .ok m' ↔ i < cap ∧ m' = m.write i v := by
  unfold store; split <;> simp_all [eq_comm]

theorem store_of_lt (hi : i < cap) : store m cap id i v = .ok (m.write i v) := store_eq_ok.mpr ⟨hi, rfl⟩

theorem store_eq_error : store m cap id i v = .error f ↔ cap ≤ i ∧ f = .noSuchElement id i := by
  unfold store; split <;> simp_all [eq_comm]
end

theorem writeStr_eq_ok {s t : State} {i : Nat} {v : Byte} :
    s.writeStr i v = .ok t ↔ i < s.cfg.strCap ∧ t = { s with str := s.str.write i v } := by
  simp only [State.writeStr, bind_eq_ok, store_eq_ok, capacity, Except.ok.injEq]
  constructor
  · rintro ⟨_, ⟨h, rfl⟩, rfl⟩; exact ⟨h, rfl⟩
  · rintro ⟨h, rfl⟩; exact ⟨_, ⟨h, rfl⟩, rfl⟩

theorem writeStr_of_lt {s : State} {i : Nat} (h : i < s.cfg.strCap) (v : Byte) :
    s.writeStr i v = .ok { s with str := s.str.write i v } := writeStr_eq_ok.mpr ⟨h, rfl⟩

theorem writePix_eq_ok {s t : State} {i : Nat} {v : Word} :
    s.writePix i v = .ok t ↔ i < s.cfg.pixCap ∧ t = { s with pix := s.pix.write i v } := by
  simp only [State.writePix, bind_eq_ok, store_eq_ok, capacity, Except.ok.injEq]
  constructor
  · rintro ⟨_, ⟨h, rfl⟩, rfl⟩; exact ⟨h, rfl⟩
  · rintro ⟨h, rfl⟩; exact ⟨_, ⟨h, rfl⟩, rfl⟩

theorem writePix_of_lt {s : State} {i : Nat} (h : i < s.cfg.pixCap) (v : Word) :
    s.writePix i v = .ok { s with pix := s.pix.write i v } := writePix_eq_ok.mpr ⟨h, rfl⟩

theorem keyByte_of_empty {s : State} (h : s.klen = 0) (i : Nat) : s.keyByte i = .ok 0x00#8 := by
  simp [State.keyByte, h]

theorem keyByte_of_key {s : State} (h : s.klen ≠ 0) (i : Nat) : s.keyByte i = s.readKey (i % s.klen) := by
  simp [State.keyByte, h]

/-- The first unwritten element of a list of reads is its head, or that of its tail. -/
theorem firstUnwritten_cons (s : State) (m : MemId) (i : Nat) (reads : List (MemId × Nat)) :
    s.firstUnwritten ((m, i) :: reads) =
      if s.element m i = none then some (m, i) else s.firstUnwritten reads := by
  rcases h : s.element m i with _ | v <;> simp [State.firstUnwritten, h]

@[simp] theorem firstUnwritten_nil (s : State) : s.firstUnwritten [] = none := rfl

theorem firstUnwritten_append (s : State) (a b : List (MemId × Nat)) :
    s.firstUnwritten (a ++ b) = (s.firstUnwritten a).or (s.firstUnwritten b) := by
  simp [State.firstUnwritten, List.find?_append]

/-! ### Lists written to a memory -/

/-- Consecutive elements written from index `i` on. -/
def Memory.writeList {w : Nat} : Memory w → Nat → List (BitVec w) → Memory w
  | m, _, [] => m
  | m, i, v :: vs => Memory.writeList (m.write i v) (i + 1) vs

section
variable {w : Nat}

@[simp] theorem Memory.writeList_nil (m : Memory w) (i : Nat) : m.writeList i [] = m := rfl

theorem Memory.writeList_cons (m : Memory w) (i : Nat) (v : BitVec w) (vs : List (BitVec w)) :
    m.writeList i (v :: vs) = (m.write i v).writeList (i + 1) vs := rfl

theorem Memory.writeList_append (m : Memory w) (i : Nat) (vs us : List (BitVec w)) :
    m.writeList i (vs ++ us) = (m.writeList i vs).writeList (i + vs.length) us := by
  induction vs generalizing m i with
  | nil => simp
  | cons v vs ih => simp [Memory.writeList_cons, ih, Nat.add_assoc, Nat.add_comm 1]

theorem Memory.read_writeList (m : Memory w) (i : Nat) (vs : List (BitVec w)) (k : Nat) :
    (m.writeList i vs).read k = if i ≤ k ∧ k < i + vs.length then vs[k - i]? else m.read k := by
  induction vs generalizing m i with
  | nil =>
    have : ¬ (i ≤ k ∧ k < i) := by omega
    simp [this]
  | cons v vs ih =>
    rw [Memory.writeList_cons, ih, Memory.read_write]
    by_cases hk : k = i
    · subst hk; simp
    · by_cases h : i + 1 ≤ k ∧ k < i + 1 + vs.length
      · have h' : i ≤ k ∧ k < i + (v :: vs).length := by simp; omega
        obtain ⟨d, rfl⟩ : ∃ d, k = i + 1 + d := ⟨k - (i + 1), by omega⟩
        rw [if_pos h, if_pos h', Nat.add_sub_cancel_left, show i + 1 + d - i = d + 1 by omega]
        rfl
      · have h' : ¬ (i ≤ k ∧ k < i + (v :: vs).length) := by simp; omega
        rw [if_neg h, if_neg h', if_neg hk]

theorem Memory.writeList_wf {m : Memory w} (h : m.wf) (i : Nat) (vs : List (BitVec w)) : (m.writeList i vs).wf := by
  induction vs generalizing m i with
  | nil => exact h
  | cons v vs ih => exact ih (Memory.write_wf h i v) (i + 1)

theorem Memory.writeList_inRange {m : Memory w} {cap i : Nat} (h : m.InRange cap) (vs : List (BitVec w))
    (hi : i + vs.length ≤ cap) : (m.writeList i vs).InRange cap := by
  induction vs generalizing m i with
  | nil => exact h
  | cons v vs ih =>
    simp at hi
    exact ih (Memory.write_inRange h (by omega) v) (by omega)

/-- What was written from 0 on is held. -/
theorem Memory.holds_writeList (m : Memory w) (vs : List (BitVec w)) : (m.writeList 0 vs).Holds vs := by
  intro j h
  rw [Memory.read_writeList]
  simp [h]

/-- A list written from 0 on leaves the elements from its length on. -/
theorem Memory.read_writeList_beyond (m : Memory w) (vs : List (BitVec w)) {k : Nat} (h : vs.length ≤ k) :
    (m.writeList 0 vs).read k = m.read k := by
  rw [Memory.read_writeList, if_neg (by omega)]
end

/-! ### The loop of CRYPT -/

/-- The bytes CRYPT's loop writes, computed from the state it starts in. -/
def cipherBytes (rd : State → Nat → Except Fault Byte) (s : State) : Nat → Nat → Except Fault (List Byte)
  | 0, _ => .ok []
  | n + 1, i => do
    let b ← rd s i
    let k ← s.keyByte i
    let rest ← cipherBytes rd s n (i + 1)
    .ok ((b ^^^ k) :: rest)

/-- What the two directions of CRYPT have in common: a source memory, a destination memory that is neither the source
nor KEY, and a write that touches nothing but the destination. -/
structure CipherPath (rd : State → Nat → Except Fault Byte) (wr : State → Nat → Byte → Except Fault State)
    (src dst : State → Memory 8) (put : State → Memory 8 → State) (srcId dstId : MemId) : Prop where
  rd_eq : ∀ s i, rd s i = fetch (src s) (capacity s.cfg srcId) srcId i
  wr_ok : ∀ s i v, i < capacity s.cfg dstId → wr s i v = .ok (put s ((dst s).write i v))
  wr_error : ∀ s i v, capacity s.cfg dstId ≤ i → wr s i v = .error (.noSuchElement dstId i)
  src_put : ∀ s m, src (put s m) = src s
  dst_put : ∀ s m, dst (put s m) = m
  cfg_put : ∀ s m, (put s m).cfg = s.cfg
  keyByte_put : ∀ s m i, (put s m).keyByte i = s.keyByte i
  put_put : ∀ s m m', put (put s m) m' = put s m'
  put_dst : ∀ s, put s (dst s) = s
  elem_src : ∀ s i, s.element srcId i = ((src s).read i).map zextByte

theorem encryptPath : CipherPath State.readMsg State.writeStr State.msg State.str
    (fun s m => { s with str := m }) .msg .str where
  rd_eq _ _ := rfl
  wr_ok s i v h := by simp only [capacity] at h; exact writeStr_of_lt h v
  wr_error s i v h := by simp [State.writeStr, store_eq_error.mpr ⟨h, rfl⟩]
  src_put _ _ := rfl
  dst_put _ _ := rfl
  cfg_put _ _ := rfl
  keyByte_put _ _ _ := rfl
  put_put _ _ _ := rfl
  put_dst _ := rfl
  elem_src _ _ := rfl

theorem decryptPath : CipherPath State.readStr State.writeMsg State.str State.msg
    (fun s m => { s with msg := m }) .str .msg where
  rd_eq _ _ := rfl
  wr_ok s i v h := by simp [State.writeMsg, store_of_lt h]
  wr_error s i v h := by simp [State.writeMsg, store_eq_error.mpr ⟨h, rfl⟩]
  src_put _ _ := rfl
  dst_put _ _ := rfl
  cfg_put _ _ := rfl
  keyByte_put _ _ _ := rfl
  put_put _ _ _ := rfl
  put_dst _ := rfl
  elem_src _ _ := rfl

section
variable {rd : State → Nat → Except Fault Byte} {wr : State → Nat → Byte → Except Fault State}
  {src dst : State → Memory 8} {put : State → Memory 8 → State} {srcId dstId : MemId}

theorem CipherPath.cipherBytes_put (p : CipherPath rd wr src dst put srcId dstId) (s : State) (m : Memory 8)
    (n i : Nat) : cipherBytes rd (put s m) n i = cipherBytes rd s n i := by
  induction n generalizing i with
  | zero => rfl
  | succ n ih => simp only [cipherBytes, p.rd_eq, p.src_put, p.cfg_put, p.keyByte_put, ih]

/-- The loop is its bytes, computed first, written in one go: as long as the destination has room. -/
theorem CipherPath.cryptLoop_eq (p : CipherPath rd wr src dst put srcId dstId) {n i : Nat} {s : State}
    (h : i + n ≤ capacity s.cfg dstId) :
    cryptLoop rd wr n i s =
      (cipherBytes rd s n i >>= fun bs => .ok (put s ((dst s).writeList i bs))) := by
  induction n generalizing i s with
  | zero => simp [cryptLoop, cipherBytes, p.put_dst]
  | succ n ih =>
    simp only [cryptLoop, cipherBytes]
    rcases rd s i with f | b
    · rfl
    · rcases s.keyByte i with f | k
      · rfl
      · simp only [Except.ok_bind', p.wr_ok s i _ (show i < capacity s.cfg dstId by omega)]
        rw [ih (by rw [p.cfg_put]; omega), p.cipherBytes_put]
        rcases cipherBytes rd s n (i + 1) with f | bs
        · rfl
        · simp [p.put_put, p.dst_put, Memory.writeList_cons]

/-- Whatever the loop does, it touches nothing but its destination. -/
theorem CipherPath.cryptLoop_frame (p : CipherPath rd wr src dst put srcId dstId) {n i : Nat} {s t : State}
    (h : cryptLoop rd wr n i s = .ok t) : ∃ m, t = put s m := by
  induction n generalizing i s with
  | zero =>
    simp only [cryptLoop, Except.ok.injEq] at h
    exact ⟨dst s, by rw [p.put_dst, h]⟩
  | succ n ih =>
    simp only [cryptLoop, bind_eq_ok] at h
    obtain ⟨b, -, k, -, u, hu, ht⟩ := h
    obtain ⟨m, rfl⟩ := ih ht
    rcases Nat.lt_or_ge i (capacity s.cfg dstId) with hi | hi
    · rw [p.wr_ok _ _ _ hi, Except.ok.injEq] at hu
      exact ⟨m, by rw [← hu, p.put_put]⟩
    · rw [p.wr_error _ _ _ hi] at hu; simp at hu

/-- The bytes the loop writes, one by one. -/
theorem cipherBytes_eq_ok {s : State} {n i : Nat} {bs : List Byte} : cipherBytes rd s n i = .ok bs ↔
    bs.length = n ∧ ∀ j < n, ∃ b k, rd s (i + j) = .ok b ∧ s.keyByte (i + j) = .ok k ∧ bs[j]? = some (b ^^^ k) := by
  induction n generalizing i bs with
  | zero =>
    simp only [cipherBytes, Except.ok.injEq, Nat.not_lt_zero, false_imp_iff, implies_true, and_true]
    exact ⟨fun h => h ▸ rfl, fun h => (List.eq_nil_of_length_eq_zero h).symm⟩
  | succ n ih =>
    simp only [cipherBytes, bind_eq_ok, ih, Except.ok.injEq]
    constructor
    · rintro ⟨b, hb, k, hk, rest, ⟨hl, hj⟩, rfl⟩
      refine ⟨by simp [hl], fun j hjn => ?_⟩
      cases j with
      | zero => exact ⟨b, k, hb, hk, by simp⟩
      | succ j =>
        obtain ⟨b', k', h1, h2, h3⟩ := hj j (by omega)
        exact ⟨b', k', by rw [← h1]; congr 1; omega, by rw [← h2]; congr 1; omega, by simpa using h3⟩
    · rintro ⟨hl, hj⟩
      cases bs with
      | nil => simp at hl
      | cons x rest =>
        obtain ⟨b, k, h1, h2, h3⟩ := hj 0 (by omega)
        refine ⟨b, by simpa using h1, k, by simpa using h2, rest, ⟨by simpa using hl, fun j hjn => ?_⟩, ?_⟩
        · obtain ⟨b', k', h1', h2', h3'⟩ := hj (j + 1) (by omega)
          exact ⟨b', k', by rw [← h1']; congr 1; omega, by rw [← h2']; congr 1; omega, by simpa using h3'⟩
        · simpa [eq_comm] using h3

/-- When the loop faults: at the first of its reads whose element nothing has written, if all of them exist. -/
theorem CipherPath.cipherBytes_fault (p : CipherPath rd wr src dst put srcId dstId) {s : State} {n i : Nat}
    (hs : i + n ≤ capacity s.cfg srcId) (hk : s.klen ≤ s.cfg.keyCap) :
    (∀ q k, s.firstUnwritten (cryptReads srcId s.klen n i) = some (q, k) →
      cipherBytes rd s n i = .error (.unwritten q k)) ∧
    (s.firstUnwritten (cryptReads srcId s.klen n i) = none → ∃ bs, cipherBytes rd s n i = .ok bs) := by
  induction n generalizing i with
  | zero => simp [cryptReads, cipherBytes]
  | succ n ih =>
    obtain ⟨ih1, ih2⟩ := ih (i := i + 1) (by omega)
    have hi : i < capacity s.cfg srcId := by omega
    simp only [cryptReads, firstUnwritten_cons, firstUnwritten_append, cipherBytes, p.rd_eq, p.elem_src]
    rcases hv : (src s).read i with _ | b
    · simp [fetch_unwritten hi hv]
    · rw [fetch_of_read hi hv]
      by_cases hz : s.klen = 0
      · rw [keyByte_of_empty hz]
        simp only [hz, if_true, firstUnwritten_nil, Option.none_or, Option.map_some, reduceCtorEq, if_false]
        rw [hz] at ih1 ih2
        refine ⟨fun q k h => by simp [ih1 q k h], fun h => ?_⟩
        obtain ⟨bs, hbs⟩ := ih2 h
        exact ⟨_, by simp [hbs]; rfl⟩
      · have hlt : i % s.klen < s.cfg.keyCap := Nat.lt_of_lt_of_le (Nat.mod_lt _ (by omega)) hk
        have he : s.element .key (i % s.klen) = (s.key.read (i % s.klen)).map zextByte := rfl
        rw [keyByte_of_key hz]
        simp only [hz, if_false, firstUnwritten_cons, firstUnwritten_nil, he, Option.map_some, reduceCtorEq,
          State.readKey]
        rcases hkv : s.key.read (i % s.klen) with _ | k
        · simp [fetch_unwritten (cap := capacity s.cfg .key) (id := .key) hlt hkv]
        · rw [fetch_of_read (cap := capacity s.cfg .key) hlt hkv]
          simp only [Option.map_some, reduceCtorEq, if_false, Option.none_or]
          refine ⟨fun q k h => by simp [ih1 q k h], fun h => ?_⟩
          obtain ⟨bs, hbs⟩ := ih2 h
          exact ⟨_, by simp [hbs]; rfl⟩

/-- The source bytes `x` and a key of which the first bytes are there: the loop writes `crypt x key`. -/
theorem CipherPath.cipherBytes_crypt (p : CipherPath rd wr src dst put srcId dstId) {s : State} {x key : List Byte}
    (hx : (src s).Holds x) (hs : x.length ≤ capacity s.cfg srcId) (hk : s.klen ≤ s.cfg.keyCap)
    (hkey : s.HasKey x.length key) : cipherBytes rd s x.length 0 = .ok (crypt x key) := by
  rw [cipherBytes_eq_ok]
  refine ⟨by simp [crypt], fun j hj => ?_⟩
  obtain ⟨hlen, hheld⟩ := hkey
  have hrd : rd s (0 + j) = .ok x[j] := by
    rw [Nat.zero_add, p.rd_eq]; exact fetch_of_read (by omega) (hx j hj)
  by_cases hz : s.klen = 0
  · refine ⟨x[j], 0x00#8, hrd, keyByte_of_empty hz _, ?_⟩
    simp [crypt, hlen, hz, hj]
  · have hmod : j % s.klen < s.klen := Nat.mod_lt _ (by omega)
    have hle : j % s.klen ≤ j := Nat.mod_le _ _
    have hread := hheld (j % s.klen) (by rw [List.length_take]; omega)
    rw [List.getElem_take] at hread
    refine ⟨x[j], key[j % s.klen], hrd, ?_, ?_⟩
    · rw [keyByte_of_key hz, Nat.zero_add]
      exact fetch_of_read (show j % s.klen < s.cfg.keyCap by omega) hread
    · have : j % s.klen < key.length := by omega
      simp only [crypt, hlen, hz, if_false, List.getElem?_mapIdx, List.getElem?_eq_getElem hj, Option.map_some,
        List.getD_eq_getElem?_getD, List.getElem?_eq_getElem this, Option.getD_some]
end

/-- CRYPT 0, and stage 1 of HIDE, when every byte they read is there. -/
theorem encryptMsg_ok {s : State} {m key : List Byte} (hm : s.HasMessage m) (hk : s.HasKey m.length key)
    (h1 : s.mlen ≤ s.cfg.msgCap) (h2 : s.mlen ≤ s.cfg.strCap) (h3 : s.klen ≤ s.cfg.keyCap) :
    encryptMsg s = .ok { s with str := s.str.writeList 0 (crypt m key), slen := s.mlen } := by
  obtain ⟨hl, hheld⟩ := hm
  have hb := encryptPath.cipherBytes_crypt (s := s) hheld (by simp only [capacity]; omega) h3 hk
  rw [hl] at hb
  simp [encryptMsg, encryptPath.cryptLoop_eq (s := s) (n := s.mlen) (i := 0) (by simp only [capacity]; omega), hb]

/-- CRYPT 1, and the end of SHOW, when every byte they read is there. -/
theorem decryptStr_ok {s : State} {x key : List Byte} (hx : s.HasStream x) (hk : s.HasKey x.length key)
    (h1 : s.slen ≤ s.cfg.msgCap) (h2 : s.slen ≤ s.cfg.strCap) (h3 : s.klen ≤ s.cfg.keyCap) :
    decryptStr s = .ok { s with msg := s.msg.writeList 0 (crypt x key), mlen := s.slen } := by
  obtain ⟨hl, hheld⟩ := hx
  have hb := decryptPath.cipherBytes_crypt (s := s) hheld (by simp only [capacity]; omega) h3 hk
  rw [hl] at hb
  simp [decryptStr, decryptPath.cryptLoop_eq (s := s) (n := s.slen) (i := 0) (by simp only [capacity]; omega), hb]

/-- Whatever CRYPT 0 does, it touches STR and SLEN alone. -/
theorem encryptMsg_frame {s t : State} (h : encryptMsg s = .ok t) :
    ∃ m, t = { s with str := m, slen := s.mlen } := by
  simp only [encryptMsg, bind_eq_ok, Except.ok.injEq] at h
  obtain ⟨u, hu, rfl⟩ := h
  obtain ⟨m, rfl⟩ := encryptPath.cryptLoop_frame hu
  exact ⟨m, rfl⟩

/-- Whatever CRYPT 1 does, it touches MSG and MLEN alone. -/
theorem decryptStr_frame {s t : State} (h : decryptStr s = .ok t) :
    ∃ m, t = { s with msg := m, mlen := s.slen } := by
  simp only [decryptStr, bind_eq_ok, Except.ok.injEq] at h
  obtain ⟨u, hu, rfl⟩ := h
  obtain ⟨m, rfl⟩ := decryptPath.cryptLoop_frame hu
  exact ⟨m, rfl⟩

/-! ### The marker -/

/-- FRAME, and stage 2 of HIDE, when STR has room. -/
theorem appendEom_ok {s : State} (h : s.slen + 3 ≤ s.cfg.strCap) :
    appendEom s = .ok { s with str := s.str.writeList s.slen eom, slen := s.slen + 3 } := by
  unfold appendEom
  rw [writeStr_of_lt (by omega)]
  simp only [Except.ok_bind']
  rw [writeStr_of_lt (by simp; omega)]
  simp only [Except.ok_bind']
  rw [writeStr_of_lt (by simp; omega)]
  simp [eom, Memory.writeList]

theorem appendEom_eq_ok {s t : State} : appendEom s = .ok t ↔
    s.slen + 3 ≤ s.cfg.strCap ∧ t = { s with str := s.str.writeList s.slen eom, slen := s.slen + 3 } := by
  constructor
  · intro h
    have hle : s.slen + 3 ≤ s.cfg.strCap := by
      simp only [appendEom, bind_eq_ok, writeStr_eq_ok] at h
      obtain ⟨t, ⟨_, rfl⟩, u, ⟨_, rfl⟩, v, ⟨h3, rfl⟩, -⟩ := h
      simp at h3; omega
    rw [appendEom_ok hle, Except.ok.injEq] at h
    exact ⟨hle, h.symm⟩
  · rintro ⟨h, rfl⟩; exact appendEom_ok h

theorem tailIsEom_short {s : State} (h : s.slen < 3) : tailIsEom s = .ok false := by
  simp [tailIsEom, show ¬ 3 ≤ s.slen by omega]

/-- DETECT's test and SHOW's are `eomAt` on what STR holds. -/
theorem tailIsEom_ok {s : State} {x : List Byte} (hx : s.HasStream x) (h : s.slen ≤ s.cfg.strCap) :
    tailIsEom s = .ok (eomAt x) := by
  obtain ⟨hl, hheld⟩ := hx
  by_cases h3 : 3 ≤ s.slen
  · have hd : x.drop (x.length - 3) = [x[x.length - 3], x[x.length - 2], x[x.length - 1]] := by
      apply List.ext_getElem
      · simp; omega
      · intro j h1 h2
        simp only [List.length_cons, List.length_nil] at h2
        rw [List.getElem_drop]
        rcases j with _ | _ | _ | j
        · simp
        · simp [show x.length - 3 + 1 = x.length - 2 by omega]
        · simp [show x.length - 3 + 2 = x.length - 1 by omega]
        · omega
    have r (j : Nat) (hj : j < x.length) : s.readStr j = .ok x[j] :=
      fetch_of_read (by simp only [capacity]; omega) (hheld j hj)
    rw [tailIsEom, if_pos h3, ← hl]
    rw [r _ (by omega), r _ (by omega), r _ (by omega)]
    simp [eomAt, hd, show 3 ≤ x.length by omega]
  · rw [tailIsEom_short (by omega)]
    simp [eomAt, show ¬ 3 ≤ x.length by omega]

/-! ### Carrier bits -/

/-- `n` pixel words from index `i` on, read in order. -/
def pixWords (s : State) : Nat → Nat → Except Fault (List Word)
  | 0, _ => .ok []
  | n + 1, i => do
    let c ← s.readPix i
    let cs ← pixWords s n (i + 1)
    .ok (c :: cs)

theorem pixWords_eq_ok {s : State} {n i : Nat} {cs : List Word} : pixWords s n i = .ok cs ↔
    cs.length = n ∧ ∀ j < n, s.readPix (i + j) = .ok (cs.getD j 0) := by
  induction n generalizing i cs with
  | zero =>
    simp only [pixWords, Except.ok.injEq, Nat.not_lt_zero, false_imp_iff, implies_true, and_true]
    exact ⟨fun h => h ▸ rfl, fun h => (List.eq_nil_of_length_eq_zero h).symm⟩
  | succ n ih =>
    simp only [pixWords, bind_eq_ok, ih, Except.ok.injEq]
    constructor
    · rintro ⟨c, hc, rest, ⟨hl, hj⟩, rfl⟩
      refine ⟨by simp [hl], fun j hjn => ?_⟩
      cases j with
      | zero => simpa using hc
      | succ j => rw [show i + (j + 1) = i + 1 + j by omega, hj j (by omega)]; simp
    · rintro ⟨hl, hj⟩
      cases cs with
      | nil => simp at hl
      | cons c rest =>
        refine ⟨c, by simpa using hj 0 (by omega), rest, ⟨by simpa using hl, fun j hjn => ?_⟩, rfl⟩
        rw [show i + 1 + j = i + (j + 1) by omega, hj (j + 1) (by omega)]; simp

/-- Reading pixels does not see what was written at an earlier index. -/
theorem pixWords_write {s : State} {n i k : Nat} {c : Word} (h : k < i) :
    pixWords { s with pix := s.pix.write k c } n i = pixWords s n i := by
  induction n generalizing i with
  | zero => rfl
  | succ n ih =>
    have hr : ({ s with pix := s.pix.write k c } : State).readPix i = s.readPix i := by
      simp only [State.readPix, fetch]
      rw [Memory.read_write_other (by omega)]
    simp only [pixWords, hr, ih (show k < i + 1 by omega)]

/-- Reading pixels depends on PIX and its capacity alone. -/
theorem pixWords_congr {s t : State} (hp : t.pix = s.pix) (hc : t.cfg = s.cfg) (n i : Nat) :
    pixWords t n i = pixWords s n i := by
  induction n generalizing i with
  | zero => rfl
  | succ n ih => simp only [pixWords, State.readPix, hp, hc, ih]

/-- When the reads of pixels fault, if the pixels exist. -/
theorem pixWords_fault {s : State} {n i : Nat} (h : i + n ≤ s.cfg.pixCap) :
    (∀ q k, s.firstUnwritten (pixReads n i) = some (q, k) → pixWords s n i = .error (.unwritten q k)) ∧
    (s.firstUnwritten (pixReads n i) = none → ∃ cs, pixWords s n i = .ok cs) := by
  have hr (n i : Nat) : pixReads (n + 1) i = (.pix, i) :: pixReads n (i + 1) := by
    simp [pixReads, List.range_succ_eq_map, Function.comp_def, Nat.add_assoc, Nat.add_comm 1]
  induction n generalizing i with
  | zero => simp [pixReads, pixWords]
  | succ n ih =>
    obtain ⟨ih1, ih2⟩ := ih (i := i + 1) (by omega)
    have hi : i < capacity s.cfg .pix := by simp only [capacity]; omega
    have he : s.element .pix i = s.pix.read i := rfl
    simp only [hr, firstUnwritten_cons, he, pixWords, State.readPix]
    rcases hv : s.pix.read i with _ | c
    · simp [fetch_unwritten hi hv]
    · rw [fetch_of_read hi hv]
      simp only [reduceCtorEq, if_false]
      refine ⟨fun q k h => by simp [ih1 q k h], fun h => ?_⟩
      obtain ⟨cs, hcs⟩ := ih2 h
      exact ⟨_, by simp [hcs]; rfl⟩

/-- The carrier bits of loaded pixels. -/
theorem pixWords_ok {s : State} {n i : Nat} (h : i + n ≤ s.cfg.pixCap)
    (hl : ∀ k, i ≤ k → k < i + n → (s.pix.read k).isSome) : ∃ cs, pixWords s n i = .ok cs := by
  apply (pixWords_fault h).2
  simp only [State.firstUnwritten, List.find?_eq_none, pixReads, List.mem_map, List.mem_range]
  rintro p ⟨j, hj, rfl⟩
  have := hl (i + j) (by omega) (by omega)
  simp [State.element] at this ⊢
  exact Option.isSome_iff_ne_none.mp this

/-- `gatherBits` is the pixels read in order, bit 0 of each. -/
theorem gatherBits_eq (n : Nat) (s : State) : gatherBits n s =
    (pixWords s n s.pos >>= fun cs => .ok (cs.map readBit, { s with pos := s.pos + n })) := by
  induction n generalizing s with
  | zero => simp [gatherBits, pixWords]
  | succ n ih =>
    simp only [gatherBits, pixWords, ih]
    rw [pixWords_congr (s := s) (t := { s with pos := s.pos + 1 }) rfl rfl]
    rcases s.readPix s.pos with f | c
    · rfl
    · rcases pixWords s n (s.pos + 1) with f | cs
      · rfl
      · simp [Nat.add_assoc, Nat.add_comm 1]

/-- `embedBits` is the pixels read in order and written back in one go, each with its carrier bit replaced. -/
theorem embedBits_eq (vs : List Bit) (s : State) : embedBits vs s =
    (pixWords s vs.length s.pos >>= fun cs =>
      .ok { s with pix := s.pix.writeList s.pos (List.zipWith writeBit cs vs), pos := s.pos + vs.length }) := by
  induction vs generalizing s with
  | nil => simp [embedBits, pixWords]
  | cons v vs ih =>
    simp only [embedBits, List.length_cons, pixWords]
    rcases hc : s.readPix s.pos with f | c
    · rfl
    · have hlt := (fetch_eq_ok.mp hc).1
      simp only [capacity] at hlt
      simp only [Except.ok_bind', writePix_of_lt hlt, ih]
      have e : pixWords { s with pix := s.pix.write s.pos (writeBit c v), pos := s.pos + 1 } vs.length (s.pos + 1) =
          pixWords s vs.length (s.pos + 1) := by
        rw [← pixWords_write (s := s) (c := writeBit c v) (show s.pos < s.pos + 1 by omega)]
        apply pixWords_congr <;> rfl
      rw [e]
      rcases pixWords s vs.length (s.pos + 1) with f | cs
      · rfl
      · simp [Memory.writeList_cons, Nat.add_assoc, Nat.add_comm 1]

theorem embedBits_append (us vs : List Bit) (s : State) :
    embedBits (us ++ vs) s = embedBits us s >>= embedBits vs := by
  induction us generalizing s with
  | nil => rfl
  | cons u us ih =>
    simp only [List.cons_append, embedBits]
    rcases s.readPix s.pos with f | c
    · rfl
    · simp only [Except.ok_bind']
      rcases s.writePix s.pos (writeBit c u) with f | t
      · rfl
      · simp [ih]

/-- `embedBits` touches PIX and POS alone. -/
theorem embedBits_frame {vs : List Bit} {s t : State} (h : embedBits vs s = .ok t) :
    ∃ p, t = { s with pix := p, pos := s.pos + vs.length } := by
  rw [embedBits_eq] at h
  simp only [bind_eq_ok, Except.ok.injEq] at h
  obtain ⟨cs, -, rfl⟩ := h
  exact ⟨_, rfl⟩

/-- Stage 4 of HIDE embeds the bits of the bytes STR holds. -/
theorem embedBytes_eq {s : State} {x : List Byte} {i : Nat}
    (hx : ∀ (j : Nat) (h : j < x.length), s.readStr (i + j) = .ok x[j]) :
    embedBytes x.length i s = embedBits (streamBits x) s := by
  induction x generalizing s i with
  | nil => rfl
  | cons b x ih =>
    have hb : s.readStr i = .ok b := hx 0 (by simp)
    rw [show streamBits (b :: x) = toBits b ++ streamBits x from rfl, embedBits_append]
    simp only [List.length_cons, embedBytes, hb, Except.ok_bind']
    rcases ht : embedBits (toBits b) s with f | t
    · rfl
    · obtain ⟨p, rfl⟩ := embedBits_frame ht
      exact ih fun j h => by
        have := hx (j + 1) (by simp; omega)
        rw [show i + (j + 1) = i + 1 + j by omega] at this
        exact this

/-- Whatever stage 4 of HIDE does, it touches PIX and POS alone. -/
theorem embedBytes_frame {n i : Nat} {s t : State} (h : embedBytes n i s = .ok t) :
    ∃ p, t = { s with pix := p, pos := s.pos + 8 * n } := by
  induction n generalizing i s with
  | zero => simp only [embedBytes, Except.ok.injEq] at h; exact ⟨s.pix, by rw [← h]; rfl⟩
  | succ n ih =>
    simp only [embedBytes, bind_eq_ok] at h
    obtain ⟨b, -, u, hu, ht⟩ := h
    obtain ⟨p, rfl⟩ := embedBits_frame hu
    obtain ⟨p', rfl⟩ := ih ht
    exact ⟨p', by simp [toBits]; omega⟩

@[simp] theorem toBits_length (b : Byte) : (toBits b).length = 8 := rfl

/-- Element k of the sequence is bit 7 - k of the byte: most significant bit first (42_bitcodec.md R110). -/
theorem toBits_getElem? (b : Byte) {k : Nat} (hk : k < 8) : (toBits b)[k]? = some (b.extractLsb' (7 - k) 1) := by
  have msbFirst : ∀ k < 8, [7, 6, 5, 4, 3, 2, 1, 0][k]? = some (7 - k) := by decide
  rw [toBits, List.getElem?_map, msbFirst k hk]
  rfl

theorem streamBits_length (x : List Byte) : (streamBits x).length = 8 * x.length := by
  induction x with
  | nil => rfl
  | cons b x ih =>
    rw [show streamBits (b :: x) = toBits b ++ streamBits x from rfl, List.length_append, ih]
    simp; omega

/-- Bit k of a stream is bit 7 - (k mod 8) of its byte k div 8 (45_orchestration.md R150). -/
theorem streamBits_getElem? (x : List Byte) (k : Nat) :
    (streamBits x)[k]? = (x[k / 8]?).map fun b => b.extractLsb' (7 - k % 8) 1 := by
  induction x generalizing k with
  | nil => rfl
  | cons b x ih =>
    rw [show streamBits (b :: x) = toBits b ++ streamBits x from rfl]
    rcases Nat.lt_or_ge k 8 with hk | hk
    · rw [List.getElem?_append_left (by simpa using hk)]
      rw [toBits_getElem? b hk, show k / 8 = 0 by omega, show k % 8 = k by omega]
      rfl
    · rw [List.getElem?_append_right (by simpa using hk), ih]
      rw [toBits_length, show (k - 8) % 8 = k % 8 by omega, show k / 8 = (k - 8) / 8 + 1 by omega,
        List.getElem?_cons_succ]

end Sys2Proof.Machine
end

