-- ==== Sys2Proof/Laws/Show.lean ====
section
/-! SUPPORT. The loop of SHOW as a list computation: what it decodes depends on PIX, the dimensions and the
parameters alone, and all it does to the state is to append what it decodes to STR. -/

namespace Sys2Proof.Machine

/-- The state of SHOW after it has decoded the raw bytes `x` from POS = 0. -/
def shown (s : State) (x : List Byte) : State :=
  { s with str := s.str.writeList 0 x, slen := x.length, pos := 8 * x.length, det := false }

/-- The raw bytes SHOW's loop decodes in at most `n` more iterations after `x`, and whether they end in the marker. -/
def showBytes (s : State) : Nat → List Byte → Except Fault (Bool × List Byte)
  | 0, x => .ok (false, x)
  | n + 1, x =>
    if 8 * x.length + 8 > s.gridBits then .ok (false, x)
    else
      pixWords s 8 (8 * x.length) >>= fun cs =>
        let x' := x ++ [fromBits (cs.map readBit)]
        if x.length < s.cfg.strCap then
          if eomAt x' then .ok (true, x') else showBytes s n x'
        else .error (.noSuchElement .str x.length)

theorem gatherByte_eq (s : State) : gatherByte s =
    (pixWords s 8 s.pos >>= fun cs =>
      if s.slen < s.cfg.strCap then
        .ok { s with str := s.str.write s.slen (fromBits (cs.map readBit)), slen := s.slen + 1, pos := s.pos + 8 }
      else .error (.noSuchElement .str s.slen)) := by
  unfold gatherByte
  rw [gatherBits_eq]
  rcases pixWords s 8 s.pos with f | cs
  · rfl
  · simp only [Except.ok_bind']
    split
    · rename_i h
      rw [writeStr_of_lt (s := { s with pos := s.pos + 8 }) h]
      rfl
    · rename_i h
      simp [State.writeStr, store_eq_error.mpr ⟨show capacity s.cfg .str ≤ s.slen by simp only [capacity]; omega, rfl⟩]

/-- The loop is its decoded bytes appended to STR. -/
theorem showLoop_eq (s : State) (n : Nat) (x : List Byte) :
    showLoop n (shown s x) = (showBytes s n x >>= fun r => .ok (r.1, shown s r.2)) := by
  induction n generalizing x with
  | zero => rfl
  | succ n ih =>
    simp only [showLoop, showBytes, show (shown s x).pos = 8 * x.length from rfl,
      show (shown s x).gridBits = s.gridBits from rfl]
    split
    · rfl
    · rw [gatherByte_eq, pixWords_congr (s := s) (t := shown s x) rfl rfl]
      simp only [show (shown s x).pos = 8 * x.length from rfl]
      rcases pixWords s 8 (8 * x.length) with f | cs
      · rfl
      · simp only [Except.ok_bind']
        by_cases h : x.length < s.cfg.strCap
        · rw [if_pos (show (shown s x).slen < (shown s x).cfg.strCap from h), if_pos h]
          have hs : ({ shown s x with
              str := (shown s x).str.write (shown s x).slen (fromBits (cs.map readBit)),
              slen := (shown s x).slen + 1, pos := 8 * x.length + 8 } : State) =
              shown s (x ++ [fromBits (cs.map readBit)]) := by
            simp [shown, Memory.writeList_append, Memory.writeList, Nat.mul_add]
          rw [Except.ok_bind', hs, tailIsEom_ok (x := x ++ [fromBits (cs.map readBit)])
            ⟨by simp [shown], Memory.holds_writeList _ _⟩ (by simp [shown]; omega)]
          simp only [Except.ok_bind']
          split
          · rfl
          · exact ih _
        · rw [if_neg (show ¬ (shown s x).slen < (shown s x).cfg.strCap from h), if_neg h]
          rfl

/-- SHOW, with its loop as a list computation. -/
theorem execShow_eq (s : State) : execShow s =
    andThen (showBytes s s.showBound []) fun r =>
      if r.1 then
        let t := { shown s r.2 with slen := r.2.length - 3, det := true }
        if t.slen > t.cfg.msgCap then raise .overflow t else finish (decryptStr t)
      else raise .noframe (shown s r.2) := by
  unfold execShow
  have h : ({ s with slen := 0, pos := 0, det := false } : State) = shown s [] := rfl
  rw [h, showLoop_eq]
  rcases showBytes s s.showBound [] with f | r <;> rfl

/-- What SHOW decodes depends on PIX, the dimensions and the parameters alone. -/
theorem showBytes_congr {s t : State} (hp : t.pix = s.pix) (hc : t.cfg = s.cfg) (hw : t.width = s.width)
    (hh : t.height = s.height) (n : Nat) (x : List Byte) : showBytes t n x = showBytes s n x := by
  have hg : t.gridBits = s.gridBits := by simp [State.gridBits, hw, hh]
  induction n generalizing x with
  | zero => rfl
  | succ n ih => simp only [showBytes, hg, hc, pixWords_congr hp hc, ih]

/-- Everything the loop can do: it appends whole bytes within the grid and STR, and it says it found the marker
exactly when they end in it. -/
theorem showBytes_cases {s : State} {n : Nat} {x y : List Byte} {hit : Bool}
    (h : showBytes s n x = .ok (hit, y)) :
    (∃ z, y = x ++ z ∧ (z ≠ [] → 8 * y.length ≤ s.gridBits ∧ y.length ≤ s.cfg.strCap)) ∧
      (hit = true → eomAt y = true) := by
  induction n generalizing x with
  | zero => simp only [showBytes, Except.ok.injEq, Prod.mk.injEq] at h; exact ⟨⟨[], by simp [h.2]⟩, by simp [← h.1]⟩
  | succ n ih =>
    simp only [showBytes] at h
    split at h
    · simp only [Except.ok.injEq, Prod.mk.injEq] at h; exact ⟨⟨[], by simp [h.2]⟩, by simp [← h.1]⟩
    · rename_i hg
      obtain ⟨cs, -, h⟩ := bind_eq_ok.mp h
      split at h
      · rename_i hlt
        split at h
        · rename_i he
          simp only [Except.ok.injEq, Prod.mk.injEq] at h
          obtain ⟨h1, h2⟩ := h
          refine ⟨⟨[fromBits (cs.map readBit)], h2.symm, fun _ => ?_⟩, fun _ => h2 ▸ he⟩
          rw [← h2]; simp only [List.length_append, List.length_singleton]; omega
        · obtain ⟨⟨z, hy, hz⟩, h2⟩ := ih h
          refine ⟨⟨[fromBits (cs.map readBit)] ++ z, by simpa using hy, fun _ => ?_⟩, h2⟩
          rcases z with _ | ⟨a, z⟩
          · rw [hy]; simp only [List.append_nil, List.length_append, List.length_singleton]; omega
          · exact hz (by simp)
      · simp at h

/-- When the loop faults: at a pixel nothing has written, if STR has room for every whole byte of the grid. -/
theorem showBytes_error {s : State} {n : Nat} {x : List Byte} {f : Fault} (hg : s.gridBits ≤ s.cfg.pixCap)
    (hs : s.gridBits / 8 ≤ s.cfg.strCap) (h : showBytes s n x = .error f) :
    ∃ k, f = .unwritten .pix k ∧ k < s.cfg.pixCap ∧ s.pix.read k = none := by
  induction n generalizing x with
  | zero => simp [showBytes] at h
  | succ n ih =>
    simp only [showBytes] at h
    split at h
    · simp at h
    · rename_i hlt
      rcases bind_eq_error.mp h with h | ⟨cs, -, h⟩
      · have hw := pixWords_fault (s := s) (n := 8) (i := 8 * x.length) (by omega)
        rcases hfu : s.firstUnwritten (pixReads 8 (8 * x.length)) with _ | ⟨q, k⟩
        · obtain ⟨cs, hcs⟩ := hw.2 hfu
          rw [hcs] at h; simp at h
        · rw [hw.1 q k hfu, Except.error.injEq] at h
          have hmem := List.mem_of_find?_eq_some hfu
          have hnone := List.find?_some hfu
          simp only [pixReads, List.mem_map, List.mem_range, Prod.mk.injEq] at hmem
          obtain ⟨j, hj, rfl, rfl⟩ := hmem
          exact ⟨_, h.symm, by omega, by simpa [State.element] using hnone⟩
      · split at h
        · split at h
          · simp at h
          · exact ih h
        · rename_i hns
          omega

/-- While no marker ends in what the grid spells, the loop goes through it byte by byte. -/
theorem showBytes_prefix {s : State} {x : List Byte} (hx : 8 * x.length ≤ s.gridBits)
    (hs : x.length ≤ s.cfg.strCap)
    (hread : ∀ (j : Nat) (h : j < x.length), ∃ cs, pixWords s 8 (8 * j) = .ok cs ∧ fromBits (cs.map readBit) = x[j])
    (hno : NoMarkerUpTo x.length x) (n : Nat) :
    ∀ j, j ≤ x.length → showBytes s (n + j) [] = showBytes s n (x.take j) := by
  intro j hj
  induction j generalizing n with
  | zero => simp
  | succ j ih =>
    rw [show n + (j + 1) = (n + 1) + j by omega, ih (n + 1) (by omega), showBytes]
    have hl : (x.take j).length = j := by simp; omega
    obtain ⟨cs, hcs, hb⟩ := hread j (by omega)
    have htake : x.take j ++ [x[j]] = x.take (j + 1) := by simp
    rw [hl, if_neg (by omega), hcs]
    simp only [Except.ok_bind', hb, htake]
    rw [if_pos (by omega), hno (j + 1) hj]
    rfl

/-- More iterations than the grid has whole bytes change nothing. -/
theorem showBytes_bound {s : State} {n : Nat} {x : List Byte} (h : s.gridBits / 8 < n + x.length) (k : Nat) :
    showBytes s (n + k) x = showBytes s n x := by
  induction n generalizing x with
  | zero =>
    rcases k with _ | k
    · rfl
    · simp only [showBytes]; rw [if_pos (by omega)]
  | succ n ih =>
    rw [show n + 1 + k = (n + k) + 1 by omega, showBytes, showBytes]
    congr 1
    rcases pixWords s 8 (8 * x.length) with f | cs
    · rfl
    · simp only [Except.ok_bind']
      rw [ih (by simp; omega)]

end Sys2Proof.Machine
end

