-- ==== Sys2Proof/Laws/Commands.lean ====
section
/-! SUPPORT. One lemma per command that says everything it can do when it goes on, when the longer ones fault, and
the laws of their parts that those rest on. -/

namespace Sys2Proof.Machine

/-- The two values of a bit. -/
theorem bit_cases (d : Bit) : d = 0#1 ∨ d = 1#1 := by
  have := d.isLt
  rcases (show d.toNat = 0 ∨ d.toNat = 1 by omega) with h | h
  · left; exact BitVec.eq_of_toNat_eq h
  · right; exact BitVec.eq_of_toNat_eq h

/-- Everything CRYPT 0 can do when it goes on. -/
theorem exec_crypt_zero_next {s t} (h : exec (.crypt 0#1) s = .next t) : ∃ m,
    t = { s with str := m, slen := s.mlen, err := .none } := by
  simp only [exec, execCrypt, if_true, finish_eq_next] at h
  obtain ⟨u, hu, rfl⟩ := h
  obtain ⟨m, rfl⟩ := encryptMsg_frame hu
  exact ⟨m, rfl⟩

/-- Everything CRYPT 1 can do when it goes on. -/
theorem exec_crypt_one_next {s t} (h : exec (.crypt 1#1) s = .next t) : t = { s with err := .overflow } ∨ ∃ m,
    t = { s with msg := m, mlen := s.slen, err := .none } := by
  simp only [exec, execCrypt] at h
  rw [if_neg (by decide)] at h
  split at h
  · left; simpa [eq_comm] using h
  · right
    obtain ⟨u, hu, rfl⟩ := finish_eq_next.mp h
    obtain ⟨m, rfl⟩ := decryptStr_frame hu
    exact ⟨m, rfl⟩

/-- Everything XORB can do when it goes on. -/
theorem exec_xorb_next {s t idx b} (h : exec (.xorb idx b) s = .next t) : ∃ r,
    t = { s with res := r, err := .none } := by
  simp only [exec, execXorb, andThen_eq_next, done_eq, Host.Outcome.next.injEq] at h
  obtain ⟨k, -, rfl⟩ := h; exact ⟨_, rfl⟩

/-- Everything FROMBITS can do when it goes on. -/
theorem exec_frombits_next {s t} (h : exec .frombits s = .next t) : t = { s with err := .bitcount } ∨
    t = { s with err := .overflow } ∨
    ∃ v, s.slen < s.cfg.strCap ∧
    t = { s with str := s.str.write s.slen v, slen := s.slen + 1, res := zextByte v, bv := 0, bvlen := 0,
                 err := .none } := by
  simp only [exec, execFrombits] at h
  split at h
  · left; simpa [eq_comm] using h
  · split at h
    · right; left; simpa [eq_comm] using h
    · right; right
      simp only [andThen_eq_next, done_eq, Host.Outcome.next.injEq, writeStr_eq_ok] at h
      obtain ⟨k, ⟨hk, rfl⟩, rfl⟩ := h; exact ⟨_, hk, rfl⟩

/-- Everything FRAME can do when it goes on. -/
theorem exec_frame_next {s t} (h : exec .frame s = .next t) : t = { s with err := .overflow } ∨
    s.slen + 3 ≤ s.cfg.strCap ∧
    t = { s with str := s.str.writeList s.slen eom, slen := s.slen + 3, err := .none } := by
  simp only [exec, execFrame] at h
  split at h
  · left; simpa [eq_comm] using h
  · right
    obtain ⟨u, hu, rfl⟩ := finish_eq_next.mp h
    obtain ⟨h1, rfl⟩ := appendEom_eq_ok.mp hu
    exact ⟨h1, rfl⟩

/-- Everything DETECT can do when it goes on. -/
theorem exec_detect_next {s t} (h : exec .detect s = .next t) :
    t = { s with slen := s.slen - 3, det := true, err := .none } ∨ t = { s with det := false, err := .none } := by
  simp only [exec, execDetect, andThen_eq_next] at h
  obtain ⟨hit, -, h⟩ := h
  split at h
  · left; simpa [eq_comm] using h
  · right; simpa [eq_comm] using h

/-- Everything CAPCHK can do when it goes on. -/
theorem exec_capchk_next {s t} (h : exec .capchk s = .next t) : t =
    { s with res := wordOf (s.slen * 8), res2 := wordOf s.gridBits,
             err := if s.slen * 8 ≤ s.gridBits then .none else .capacity } := by
  simp only [exec, execCapchk, capOk, decide_eq_true_eq] at h
  have : s.gridBits = s.width * s.height := rfl
  rw [this]
  split at h <;> rename_i hc <;> simp only [hc, if_true, if_false] <;> simpa [recordCapacity, eq_comm,
      State.gridBits] using h

/-- Everything WRBIT can do when it goes on. -/
theorem exec_wrbit_next {s t v} (h : exec (.wrbit v) s = .next t) : t = { s with err := .capacity } ∨
    ∃ c, s.pos < s.gridBits ∧ s.carrierWord < s.cfg.pixCap ∧ s.pix.read s.carrierWord = some c ∧
    t = { s with pix := s.pix.write s.carrierWord (writeBit c v), res := writeBit c v, res2 := c, pos := s.pos + 1,
                 err := .none } := by
  simp only [exec, execWrbit] at h
  split at h
  · left; simpa [eq_comm] using h
  · right
    simp only [andThen_eq_next, done_eq, Host.Outcome.next.injEq, writePix_eq_ok, State.readPix, fetch_eq_ok] at h
    obtain ⟨c, ⟨h1, h2⟩, u, ⟨h3, rfl⟩, rfl⟩ := h
    exact ⟨c, by omega, h1, h2, rfl⟩

/-- Everything RDBIT can do when it goes on. -/
theorem exec_rdbit_next {s t} (h : exec .rdbit s = .next t) : t = { s with err := .bitcount } ∨
    t = { s with err := .capacity } ∨
    ∃ c, s.bvlen ≠ 8 ∧ s.pos < s.gridBits ∧
    t = { s with bv := (s.bv <<< 1) ||| (readBit c).zeroExtend 8, bvlen := s.bvlen + 1, res := zextBit (readBit c),
                 pos := s.pos + 1, err := .none } := by
  simp only [exec, execRdbit] at h
  split at h
  · left; simpa [eq_comm] using h
  · split at h
    · right; left; simpa [eq_comm] using h
    · right; right
      simp only [andThen_eq_next, done_eq, Host.Outcome.next.injEq] at h
      obtain ⟨k, -, rfl⟩ := h; exact ⟨_, by assumption, by omega, rfl⟩

/-- Everything MAP can do when it goes on. -/
theorem exec_map_next {s t} (h : exec .map s = .next t) : t = { s with err := .capacity } ∨ ∃ r r2,
    t = { s with res := r, res2 := r2, err := .none } := by
  simp only [exec, execMap] at h
  split at h
  · left; simpa [eq_comm] using h
  · right; simp only [done_eq, Host.Outcome.next.injEq] at h; exact ⟨_, _, h.symm⟩

/-- Stage 4 of HIDE embeds some bits, eight for each byte. -/
theorem embedBytes_bits {n i : Nat} {s t : State} (h : embedBytes n i s = .ok t) : ∃ vs : List Bit, vs.length =
    8 * n ∧ embedBits vs s = .ok t := by
  induction n generalizing i s with
  | zero => exact ⟨[], rfl, h⟩
  | succ n ih =>
    simp only [embedBytes, bind_eq_ok] at h
    obtain ⟨b, -, u, hu, ht⟩ := h
    obtain ⟨vs, hl, hv⟩ := ih ht
    refine ⟨toBits b ++ vs, by simp [hl]; omega, ?_⟩
    rw [embedBits_append, hu]; exact hv

/-- The mask that clears bit 0. -/
theorem clearMask_getLsbD (i : Nat) (hi : i < 32) : (0xFFFFFFFE#32).getLsbD i = decide (i ≠ 0) :=
  (by decide +kernel : ∀ i : Fin 32, (0xFFFFFFFE#32).getLsbD i.1 = decide (i.1 ≠ 0)) ⟨i, hi⟩

/-- Every bit of a pixel after a carrier bit is written. -/
theorem writeBit_getLsbD (c : Word) (v : Bit) (i : Nat) (hi : i < 32) : (writeBit c v).getLsbD i = if i =
    0 then v.getLsbD 0 else c.getLsbD i := by
  unfold writeBit
  rcases bit_cases v with rfl | rfl
  · rw [if_neg (by decide), BitVec.getLsbD_and, clearMask_getLsbD i hi]; by_cases h : i = 0 <;> simp [h]
  · rw [if_pos rfl, BitVec.getLsbD_or]; by_cases h : i = 0 <;> simp [h, BitVec.getLsbD_one]

/-- What embedding bits does to PIX, word by word, and that it keeps PIX legal. -/
theorem embedBits_pix {vs : List Bit} {s t : State} (h : embedBits vs s = .ok t) :
    (∀ k, t.pix.read k = if s.pos ≤ k ∧
        k < s.pos + vs.length then (s.pix.read k).map (fun c => writeBit c (vs.getD (k - s.pos) 0)) else s.pix.read k) ∧
    (∀ k, s.pos ≤ k → k < s.pos + vs.length → k < s.cfg.pixCap ∧ (s.pix.read k).isSome) ∧
    (s.pix.wf → t.pix.wf) ∧ (s.pix.InRange s.cfg.pixCap → t.pix.InRange s.cfg.pixCap) := by
  rw [embedBits_eq] at h
  simp only [bind_eq_ok, Except.ok.injEq] at h
  obtain ⟨cs, hcs, rfl⟩ := h
  obtain ⟨hl, hr⟩ := pixWords_eq_ok.mp hcs
  have hzl : (List.zipWith writeBit cs vs).length = vs.length := by simp [hl]
  have hread : ∀ k, s.pos ≤ k → k < s.pos + vs.length → k < s.cfg.pixCap ∧ s.pix.read k =
      some (cs.getD (k - s.pos) 0) := by
    intro k h1 h2
    have := fetch_eq_ok.mp (hr (k - s.pos) (by omega))
    rw [show s.pos + (k - s.pos) = k by omega] at this
    exact this
  refine ⟨fun k => ?_, fun k h1 h2 => ?_, fun hw => Memory.writeList_wf hw _ _, fun hw => ?_⟩
  · dsimp only
    rw [Memory.read_writeList, hzl]
    split
    · rename_i hk
      rw [(hread k hk.1 hk.2).2]
      rw [List.getElem?_zipWith]
      rw [List.getElem?_eq_getElem (by omega), List.getElem?_eq_getElem (by omega)]
      simp [List.getD, List.getElem?_eq_getElem (show k - s.pos < cs.length by omega),
          List.getElem?_eq_getElem (show k - s.pos < vs.length by omega)]
    · rfl
  · exact ⟨(hread k h1 h2).1, by rw [(hread k h1 h2).2]; rfl⟩
  · by_cases hz : vs.length = 0
    · have : List.zipWith writeBit cs vs = [] := List.eq_nil_of_length_eq_zero (by omega)
      rw [this]; exact hw
    · apply Memory.writeList_inRange hw
      rw [hzl]
      have := (hread (s.pos + vs.length - 1) (by omega) (by omega)).1
      omega

/-- CRYPT 0 keeps STR legal. -/
theorem encryptMsg_legal {s t : State} (h : encryptMsg s =
    .ok t) (hw : s.str.wf) (hr : s.str.InRange s.cfg.strCap) : t.str.wf ∧ t.str.InRange s.cfg.strCap := by
  have key : ∀ n i (s t : State), cryptLoop State.readMsg State.writeStr n i s = .ok t → s.str.wf →
      s.str.InRange s.cfg.strCap → t.str.wf ∧ t.str.InRange s.cfg.strCap := by
    intro n
    induction n with
    | zero => intro i s t h; simp only [cryptLoop, Except.ok.injEq] at h; subst h; exact fun a b => ⟨a, b⟩
    | succ n ih =>
      intro i s t h hw hr
      simp only [cryptLoop, bind_eq_ok] at h
      obtain ⟨b, -, k, -, u, hu, ht⟩ := h
      obtain ⟨hi, rfl⟩ := writeStr_eq_ok.mp hu
      have := ih _ _ _ ht (Memory.write_wf hw _ _) (Memory.write_inRange hr hi _); exact this
  simp only [encryptMsg, bind_eq_ok, Except.ok.injEq] at h
  obtain ⟨u, hu, rfl⟩ := h
  have := key _ _ _ _ hu hw hr; exact this

/-- CRYPT 1 keeps MSG legal. -/
theorem decryptStr_legal {s t : State} (h : decryptStr s =
    .ok t) (hw : s.msg.wf) (hr : s.msg.InRange s.cfg.msgCap) : t.msg.wf ∧ t.msg.InRange s.cfg.msgCap := by
  have key : ∀ n i (s t : State), cryptLoop State.readStr State.writeMsg n i s = .ok t → s.msg.wf →
      s.msg.InRange s.cfg.msgCap → t.msg.wf ∧ t.msg.InRange s.cfg.msgCap := by
    intro n
    induction n with
    | zero => intro i s t h; simp only [cryptLoop, Except.ok.injEq] at h; subst h; exact fun a b => ⟨a, b⟩
    | succ n ih =>
      intro i s t h hw hr
      simp only [cryptLoop, bind_eq_ok] at h
      obtain ⟨b, -, k, -, u, hu, ht⟩ := h
      simp only [State.writeMsg, bind_eq_ok, store_eq_ok, capacity, Except.ok.injEq] at hu
      obtain ⟨_, ⟨hi, rfl⟩, rfl⟩ := hu
      have := ih _ _ _ ht (Memory.write_wf hw _ _) (Memory.write_inRange hr hi _); exact this
  simp only [decryptStr, bind_eq_ok, Except.ok.injEq] at h
  obtain ⟨u, hu, rfl⟩ := h
  have := key _ _ _ _ hu hw hr; exact this

/-- The grid never exceeds PIX. -/
theorem gridBits_le_pixCap {s : State} (h : s.Inv) : s.gridBits ≤ s.cfg.pixCap := Nat.mul_le_mul h.2.1.1 h.2.1.2.1

/-- Everything HIDE can do when it goes on. -/
theorem exec_hide_next {s t} (h : exec .hide s = .next t) : ∃ m,
    (∃ u, encryptMsg s = .ok u ∧ m = u.str.writeList s.mlen eom) ∧ s.mlen + 3 ≤ s.cfg.strCap ∧
    ((s.gridBits < (s.mlen+3)*8 ∧
    t = { s with str := m, slen := s.mlen + 3, res := wordOf ((s.mlen+3)*8), res2 := wordOf s.gridBits,
                 err := .capacity }) ∨
     ((s.mlen+3)*8 ≤ s.gridBits ∧ ∃ p,
         embedBytes (s.mlen+3) 0 { s with str := m, slen := s.mlen + 3, res := wordOf ((s.mlen+3)*8),
                                          res2 := wordOf s.gridBits, pos := 0 } =
           .ok { s with str := m, slen := s.mlen + 3, res := wordOf ((s.mlen+3)*8), res2 := wordOf s.gridBits,
                        pos := 0 + 8 * (s.mlen+3), pix := p } ∧
       t = { s with str := m, slen := s.mlen + 3, res := wordOf ((s.mlen+3)*8), res2 := wordOf s.gridBits,
                    pos := 8 * (s.mlen+3), pix := p, err := .none })) := by
  simp only [exec, execHide, andThen_eq_next] at h
  obtain ⟨e, he, f, hf, h⟩ := h
  obtain ⟨m, rfl⟩ := encryptMsg_frame he
  obtain ⟨h1, rfl⟩ := appendEom_eq_ok.mp hf
  refine ⟨_, ⟨_, he, rfl⟩, h1, ?_⟩
  simp only [capOk, decide_eq_true_eq] at h
  split at h
  · rename_i hc
    right
    obtain ⟨u, hu, rfl⟩ := finish_eq_next.mp h
    obtain ⟨p, rfl⟩ := embedBytes_frame hu
    exact ⟨hc, p, hu, by simp [recordCapacity]; rfl⟩
  · rename_i hc
    left
    simp only [raise_eq, Host.Outcome.next.injEq] at h
    refine ⟨by simpa [State.gridBits] using hc, by rw [← h]; rfl⟩

/-- Everything SHOW can do when it goes on. -/
theorem exec_show_next {s t} (h : exec .showCmd s = .next t) : ∃ hit x, showBytes s s.showBound [] = .ok (hit, x) ∧
   ((hit = false ∧ t = { shown s x with err := .noframe }) ∨
    (hit = true ∧ eomAt x = true ∧ s.cfg.msgCap < x.length - 3 ∧
    t = { shown s x with slen := x.length - 3, det := true, err := .overflow }) ∨
    (hit = true ∧ eomAt x = true ∧ x.length - 3 ≤ s.cfg.msgCap ∧
        decryptStr { shown s x with slen := x.length - 3, det := true } = .ok { t with err := s.err } ∧ ∃ m,
    t = { shown s x with slen := x.length - 3, det := true, msg := m, mlen := x.length - 3, err := .none })) := by
  rw [exec, execShow_eq, andThen_eq_next] at h
  obtain ⟨⟨hit, x⟩, hr, h⟩ := h
  refine ⟨hit, x, hr, ?_⟩
  have he := (showBytes_cases hr).2
  cases hit
  · left; simpa [eq_comm] using h
  · right
    simp only [if_true] at h
    split at h
    · left; rename_i hc; simp only [raise_eq, Host.Outcome.next.injEq] at h; exact ⟨rfl, he rfl, hc, h.symm⟩
    · right
      rename_i hc
      obtain ⟨u, hu, rfl⟩ := finish_eq_next.mp h
      obtain ⟨m, rfl⟩ := decryptStr_frame hu
      exact ⟨rfl, he rfl, Nat.not_lt.mp hc, hu, m, rfl⟩

/-- The loop of CRYPT does not depend on ERR. -/
theorem cryptLoop_setErr {rd : State → Nat → Except Fault Byte} {wr : State → Nat → Byte → Except Fault State}
    (e : ErrCode)
    (hrd : ∀ s i, rd { s with err := e } i = rd s i)
    (hwr : ∀ s i v, wr { s with err := e } i v =
        (wr s i v).map fun t => { t with err := e }) (n i : Nat) (s : State) :
    cryptLoop rd wr n i { s with err := e } = (cryptLoop rd wr n i s).map fun t => { t with err := e } := by
  induction n generalizing i s with
  | zero => rfl
  | succ n ih =>
    simp only [cryptLoop, hrd, hwr, show ∀ s : State, State.keyByte { s with err := e } i =
        s.keyByte i from fun _ => rfl]
    rcases rd s i with f | b
    · rfl
    · rcases s.keyByte i with f | k
      · rfl
      · simp only [Except.ok_bind']
        rcases wr s i (b ^^^ k) with f | t
        · rfl
        · exact ih _ _

theorem encryptMsg_setErr (e : ErrCode) (s : State) : encryptMsg { s with err := e } =
    (encryptMsg s).map fun t => { t with err := e } := by
  simp only [encryptMsg]
  rw [cryptLoop_setErr e (fun _ _ => rfl) (by intro s i v; simp only [State.writeStr, store]; split <;> rfl)]
  rcases cryptLoop _ _ _ _ s with f | t <;> rfl

theorem decryptStr_setErr (e : ErrCode) (s : State) : decryptStr { s with err := e } =
    (decryptStr s).map fun t => { t with err := e } := by
  simp only [decryptStr]
  rw [cryptLoop_setErr e (fun _ _ => rfl) (by intro s i v; simp only [State.writeMsg, store]; split <;> rfl)]
  rcases cryptLoop _ _ _ _ s with f | t <;> rfl

theorem writeStr_setErr (e : ErrCode) (s : State) (i v) : State.writeStr { s with err := e } i v =
    (s.writeStr i v).map fun t => { t with err := e } := by
  simp only [State.writeStr, store]; split <;> rfl

theorem appendEom_setErr (e : ErrCode) (s : State) : appendEom { s with err := e } =
    (appendEom s).map fun t => { t with err := e } := by
  simp only [appendEom, writeStr_setErr]
  rcases s.writeStr (s.slen+0) 0#8 with f | t
  · rfl
  simp only [Except.map, Except.ok_bind', writeStr_setErr]
  rcases t.writeStr (s.slen+1) 0#8 with f | t
  · rfl
  simp only [Except.map, Except.ok_bind', writeStr_setErr]
  rcases t.writeStr (s.slen+2) 3#8 with f | t
  · rfl
  simp only [Except.map, Except.ok_bind', writeStr_setErr]

theorem embedBits_setErr (e : ErrCode) (vs) (s : State) : embedBits vs { s with err := e } =
    (embedBits vs s).map fun t => { t with err := e } := by
  rw [embedBits_eq, embedBits_eq, pixWords_congr (s := s) (t := { s with err := e }) rfl rfl]
  dsimp only
  rcases pixWords s _ _ with f | cs <;> rfl

theorem embedBytes_setErr (e : ErrCode) (n i) (s : State) : embedBytes n i { s with err := e } =
    (embedBytes n i s).map fun t => { t with err := e } := by
  induction n generalizing i s with
  | zero => rfl
  | succ n ih =>
    simp only [embedBytes, embedBits_setErr, show State.readStr { s with err := e } i = s.readStr i from rfl]
    rcases s.readStr i with f | b
    · rfl
    · simp only [Except.ok_bind']
      rcases embedBits (toBits b) s with f | t
      · rfl
      · exact ih _ _

theorem finish_setErr (e : ErrCode) (x : Except Fault State) : finish (x.map fun t => { t with err := e }) =
    finish x := by
  rcases x with f | t <;> rfl

/-- When CRYPT 0 faults, and that it completes otherwise. -/
theorem encryptMsg_reads {s : State} (hI : s.Inv) :
    (∀ q k, s.firstUnwritten (cryptReads .msg s.klen s.mlen 0) = some (q, k) → encryptMsg s =
        .error (.unwritten q k)) ∧
    (s.firstUnwritten (cryptReads .msg s.klen s.mlen 0) = none → ∃ bs : List Byte, bs.length = s.mlen ∧
        encryptMsg s = .ok { s with str := s.str.writeList 0 bs, slen := s.mlen }) := by
  obtain ⟨hc, ⟨h1, h2, h3, h4, h5, h6⟩, -⟩ := hI
  have hc3 := hc.2.2.1
  have hle : 0 + s.mlen ≤ capacity s.cfg .str := by simp only [capacity]; omega
  obtain ⟨f1, f2⟩ := encryptPath.cipherBytes_fault (s := s) (n := s.mlen) (i := 0) (by simp only [capacity]; omega) h3
  simp only [encryptMsg, encryptPath.cryptLoop_eq hle]
  refine ⟨fun q k h => by rw [f1 q k h]; rfl, fun h => ?_⟩
  obtain ⟨bs, hbs⟩ := f2 h
  exact ⟨bs, (cipherBytes_eq_ok.mp hbs).1, by rw [hbs]; rfl⟩

/-- When CRYPT 1 faults, and that it completes otherwise. -/
theorem decryptStr_reads {s : State} (hc : s.cfg.Conforming) (h3 : s.klen ≤ s.cfg.keyCap) (hs : s.slen ≤ s.cfg.msgCap) :
    (∀ q k, s.firstUnwritten (cryptReads .str s.klen s.slen 0) = some (q, k) → decryptStr s =
        .error (.unwritten q k)) ∧
    (s.firstUnwritten (cryptReads .str s.klen s.slen 0) = none → ∃ bs : List Byte, bs.length = s.slen ∧
        decryptStr s = .ok { s with msg := s.msg.writeList 0 bs, mlen := s.slen }) := by
  have hc3 := hc.2.2.1
  have hle : 0 + s.slen ≤ capacity s.cfg .msg := by simp only [capacity]; omega
  obtain ⟨f1, f2⟩ := decryptPath.cipherBytes_fault (s := s) (n := s.slen) (i := 0) (by simp only [capacity]; omega) h3
  simp only [decryptStr, decryptPath.cryptLoop_eq hle]
  refine ⟨fun q k h => by rw [f1 q k h]; rfl, fun h => ?_⟩
  obtain ⟨bs, hbs⟩ := f2 h
  exact ⟨bs, (cipherBytes_eq_ok.mp hbs).1, by rw [hbs]; rfl⟩

/-- The first unwritten element is one of the reads, and unwritten. -/
theorem firstUnwritten_mem {s : State} {l q k} (h : s.firstUnwritten l = some (q, k)) : (q,k) ∈ l ∧ s.element q k =
    none := by
  refine ⟨List.mem_of_find?_eq_some h, ?_⟩
  have := List.find?_some h; simpa using this

/-- The elements the loop of CRYPT reads. -/
theorem cryptReads_mem {src klen n i q k} (h : (q,k) ∈ cryptReads src klen n i) : (q = src ∧ i ≤ k ∧ k < i + n) ∨
    (q = .key ∧ k < klen) := by
  induction n generalizing i with
  | zero => simp [cryptReads] at h
  | succ n ih =>
    simp only [cryptReads, List.mem_cons, List.mem_append, Prod.mk.injEq] at h
    rcases h with ⟨rfl, rfl⟩ | h | h
    · left; exact ⟨rfl, by omega, by omega⟩
    · split at h
      · simp at h
      · simp at h; right; refine ⟨h.1, ?_⟩; rw [h.2]; exact Nat.mod_lt _ (by omega)
    · rcases ih h with h | h
      · left; exact ⟨h.1, by omega, by omega⟩
      · right; exact h

/-- The one fault of the marker test. -/
theorem tailIsEom_fault {s : State} (hs : s.slen ≤ s.cfg.strCap) {f} (h : tailIsEom s = .error f) : ∃ k, f =
    .unwritten .str k ∧ k < s.cfg.strCap ∧ s.str.read k = none := by
  unfold tailIsEom at h
  split at h
  · rename_i h3
    have key : ∀ i, i < s.slen → ∀ f, s.readStr i = .error f → ∃ k, f = .unwritten .str k ∧ k < s.cfg.strCap ∧
        s.str.read k = none := by
      intro i hi f h
      rcases fetch_eq_error.mp h with ⟨h1, h2, h3⟩ | ⟨h1, h2⟩
      · exact ⟨i, h3, h1, h2⟩
      · simp only [capacity] at h1; omega
    rcases bind_eq_error.mp h with h | ⟨_, _, h⟩
    · exact key _ (by omega) _ h
    · rcases bind_eq_error.mp h with h | ⟨_, _, h⟩
      · exact key _ (by omega) _ h
      · rcases bind_eq_error.mp h with h | ⟨_, _, h⟩
        · exact key _ (by omega) _ h
        · simp at h
  · simp at h

/-- When embedding bits faults, and that it completes otherwise. -/
theorem embedBits_reads {vs : List Bit} {s : State} (hle : s.pos + vs.length ≤ s.cfg.pixCap) :
    (∀ q k, s.firstUnwritten (pixReads vs.length s.pos) = some (q, k) → embedBits vs s = .error (.unwritten q k)) ∧
    (s.firstUnwritten (pixReads vs.length s.pos) = none → ∃ t, embedBits vs s = .ok t) := by
  obtain ⟨f1, f2⟩ := pixWords_fault hle
  rw [embedBits_eq]
  refine ⟨fun q k h => by rw [f1 q k h]; rfl, fun h => ?_⟩
  obtain ⟨cs, hcs⟩ := f2 h
  rw [hcs]; exact ⟨_, rfl⟩

/-- A number that fits 32 bits. -/
theorem wordOf_fits {n} (h : n < 2^32) : wordOf n = BitVec.ofNat 32 n := by simp only [wordOf, h, if_true]

/-- HIDE, by the stage it stops in. -/
theorem exec_hide_cases {s : State} (hI : s.Inv) :
    (∀ q k, s.firstUnwritten (cryptReads .msg s.klen s.mlen 0) = some (q, k) → exec .hide s =
        .fault (.unwritten q k)) ∧
    (∀ bs : List Byte, bs.length = s.mlen → encryptMsg s =
        .ok { s with str := s.str.writeList 0 bs, slen := s.mlen } →
      exec .hide s =
        let t : State := { s with str := s.str.writeList 0 (frame bs), slen := s.mlen + 3,
                                  res := BitVec.ofNat 32 ((s.mlen + 3) * 8),
                                  res2 := BitVec.ofNat 32 (s.width * s.height) }
        if (s.mlen + 3) * 8 ≤ s.width * s.height then finish (embedBits (streamBits (frame bs)) { t with pos := 0 })
        else raise .capacity t) := by
  refine ⟨fun q k h => ?_, fun bs hl he => ?_⟩
  · simp only [exec, execHide, (encryptMsg_reads hI).1 q k h, andThen_error]
  · have hgb := gridBits_le_pixCap hI
    obtain ⟨hc, ⟨h1, h2, h3, h4, h5, h6⟩, -⟩ := hI
    have hc3 := hc.2.2.1; have hp := hc.2.2.2.2.1; have h8 := hc.2.2.2.2.2
    have hml : s.mlen + 3 ≤ s.cfg.strCap := by omega
    simp only [exec, execHide, he, andThen_ok]
    rw [appendEom_ok (s := { s with str := s.str.writeList 0 bs, slen := s.mlen }) hml]
    simp only [andThen_ok, capOk, decide_eq_true_eq]
    have hstr : (s.str.writeList 0 bs).writeList s.mlen eom = s.str.writeList 0 (frame bs) := by
      rw [frame, Memory.writeList_append, Nat.zero_add, hl]
    have hfl : (frame bs).length = s.mlen + 3 := by simp [frame, eom, hl]
    have hrec : ∀ (n : Nat) , recordCapacity { s with str := s.str.writeList 0 (frame bs), slen := s.mlen + 3 } =
        { s with str := s.str.writeList 0 (frame bs), slen := s.mlen + 3,
                 res := BitVec.ofNat 32 ((s.mlen + 3) * 8), res2 := BitVec.ofNat 32 (s.width * s.height) } := by
      intro _
      simp only [recordCapacity, State.gridBits]
      rw [wordOf_fits (by omega), wordOf_fits (by unfold State.gridBits at hgb; omega)]
    rw [hstr, hrec 0]
    dsimp only
    split
    · have := embedBytes_eq
        (s := { s with str := s.str.writeList 0 (frame bs), slen := s.mlen + 3,
                       res := BitVec.ofNat 32 ((s.mlen + 3) * 8), res2 := BitVec.ofNat 32 (s.width * s.height),
                       pos := 0 }) (x := frame bs) (i := 0) (by
        intro j hj
        rw [Nat.zero_add]
        exact fetch_of_read (by simp only [capacity]; omega) (Memory.holds_writeList _ _ j hj))
      rw [hfl] at this
      rw [this]
    · rfl

theorem crypt_length (m k : List Byte) : (crypt m k).length = m.length := by simp [crypt]

/-- The pixel of map(POS) is PIX word POS (20_memory.md R58). -/
theorem carrierWord_eq_pos (s : State) : s.carrierWord = s.pos := by
  show s.pos / s.width * s.width + s.pos % s.width = s.pos
  rw [Nat.mul_comm]; exact Nat.div_add_mod _ _

theorem readBit_toNat (c : Word) : (readBit c).toNat = c.toNat % 2 := by simp [readBit, BitVec.extractLsb'_toNat]

theorem readBit_ofBool (c : Word) : readBit c = BitVec.ofBool (c.getLsbD 0) := by
  apply BitVec.eq_of_getLsbD_eq; intro i hi; have : i = 0 := by omega
  subst this; simp [readBit]

/-- A bit appended to a partial sequence. -/
theorem pushBit_toNat (bv : Byte) (v : Bit) (n : Nat) (hn : n < 8) (hb : bv.toNat < 2^n) :
    ((bv <<< 1) ||| v.zeroExtend 8).toNat = 2 * bv.toNat + v.toNat := by
  have hv := v.isLt
  have : 2^n ≤ 2^7 := Nat.pow_le_pow_right (by omega) (by omega)
  rw [BitVec.toNat_or, BitVec.toNat_shiftLeft, BitVec.toNat_setWidth, Nat.mod_eq_of_lt (a := v.toNat) (by omega),
      Nat.shiftLeft_eq, Nat.mod_eq_of_lt (by omega)]
  have := (Nat.shiftLeft_add_eq_or_of_lt (i := 1) (b := v.toNat) (by omega) bv.toNat)
  rw [Nat.shiftLeft_eq] at this
  rw [← this]; omega

/-- A sequence of commands in two parts. -/
theorem runCommands_append (a b : List Instr) (s : State) : runCommands (a ++ b) s =
    match runCommands a s with | .next t => runCommands b t | .fault f => .fault f | .refused r => .refused r := by
  induction a generalizing s with
  | nil => rfl
  | cons i a ih =>
    simp only [List.cons_append, runCommands]
    rcases exec i s with t | f | r
    · exact ih t
    · rfl
    · rfl

/-- A marker found: what was read on the way, and that none ended earlier. -/
theorem showBytes_reads {s : State} {n : Nat} {x y : List Byte} (h : showBytes s n x = .ok (true, y)) :
    ∃ z, y = x ++ z ∧ z ≠ [] ∧ eomAt y = true ∧ (∀ k, x.length < k → k < y.length → eomAt (y.take k) = false) ∧
      (∀ j, x.length ≤ j → j < y.length → 8 * j + 8 ≤ s.gridBits ∧ j < s.cfg.strCap ∧ ∃ cs, pixWords s 8 (8 * j) =
          .ok cs ∧ y[j]? = some (fromBits (cs.map readBit))) := by
  induction n generalizing x with
  | zero => simp [showBytes] at h
  | succ n ih =>
    simp only [showBytes] at h
    split at h
    · simp at h
    · rename_i hg
      obtain ⟨cs, hcs, h⟩ := bind_eq_ok.mp h
      split at h
      · rename_i hlt
        split at h
        · rename_i he
          simp only [Except.ok.injEq, Prod.mk.injEq, true_and] at h
          subst h
          refine ⟨_, rfl, by simp, he, ?_, ?_⟩
          · intro k h1 h2; simp at h2; omega
          · intro j h1 h2; simp at h2
            have : j = x.length := by omega
            subst this
            exact ⟨by omega, hlt, cs, hcs, by simp⟩
        · rename_i he
          obtain ⟨z, hz1, hz2, hz3, hz4, hz5⟩ := ih h
          refine ⟨[fromBits (cs.map readBit)] ++ z, by simpa using hz1, by simp, hz3, ?_, ?_⟩
          · intro k h1 h2
            by_cases hk : k = x.length + 1
            · subst hk
              rw [hz1]
              rw [List.take_append_of_le_length (by simp), List.take_of_length_le (by simp)]
              simpa using he
            · exact hz4 k (by simp; omega) h2
          · intro j h1 h2
            by_cases hj : j = x.length
            · subst hj
              exact ⟨by omega, hlt, cs, hcs, by rw [hz1]; simp⟩
            · exact hz5 j (by simp; omega) h2
      · simp at h

end Sys2Proof.Machine
end

