-- ==== Sys2Proof/Laws/Encoding.lean ====
section
/-! SUPPORT. The words of the formats and the fields of a word, as numbers (spec/30_encoding.md R72). -/

namespace Sys2Proof

theorem formatN_toNat (opc : BitVec 4) : (formatN opc).toNat = opc.toNat * 2 ^ 28 := by
  show (opc ++ 0#28 : BitVec (4 + 28)).toNat = _
  rw [BitVec.toNat_append]
  simp [Nat.shiftLeft_eq]

theorem formatXB_toNat (opc : BitVec 4) (idx : BitVec 20) (b : Byte) :
    (formatXB opc idx b).toNat = opc.toNat * 2 ^ 28 + idx.toNat * 2 ^ 8 + b.toNat := by
  show (opc ++ idx ++ b : BitVec (4 + 20 + 8)).toNat = _
  have := b.isLt
  have := idx.isLt
  rw [BitVec.toNat_append, BitVec.toNat_append, ← Nat.shiftLeft_add_eq_or_of_lt (by omega),
    ← Nat.shiftLeft_add_eq_or_of_lt (by omega), Nat.shiftLeft_eq, Nat.shiftLeft_eq]
  omega

theorem formatB_toNat (opc : BitVec 4) (b : Byte) : (formatB opc b).toNat = opc.toNat * 2 ^ 28 + b.toNat := by
  have h := formatXB_toNat opc 0#20 b
  simp only [BitVec.toNat_ofNat] at h
  exact h.trans (by omega)

theorem formatF1_toNat (opc : BitVec 4) (v : Bit) : (formatF1 opc v).toNat = opc.toNat * 2 ^ 28 + v.toNat := by
  show (opc ++ 0#27 ++ v : BitVec (4 + 27 + 1)).toNat = _
  have := v.isLt
  rw [BitVec.toNat_append, BitVec.toNat_append, ← Nat.shiftLeft_add_eq_or_of_lt (by omega),
    ← Nat.shiftLeft_add_eq_or_of_lt (by decide), Nat.shiftLeft_eq, Nat.shiftLeft_eq]
  simp only [BitVec.toNat_ofNat]
  omega

theorem opcOf_toNat (w : Word) : (opcOf w).toNat = w.toNat / 2 ^ 28 := by
  have := w.isLt
  simp only [opcOf, BitVec.extractLsb'_toNat, Nat.shiftRight_eq_div_pow]
  omega

theorem reservedN_toNat (w : Word) : (reservedN w).toNat = w.toNat % 2 ^ 28 := by
  simp [reservedN, BitVec.extractLsb'_toNat]

theorem reservedF1_toNat (w : Word) : (reservedF1 w).toNat = w.toNat / 2 % 2 ^ 27 := by
  simp [reservedF1, BitVec.extractLsb'_toNat, Nat.shiftRight_eq_div_pow]

theorem field27to8_toNat (w : Word) : (field27to8 w).toNat = w.toNat / 2 ^ 8 % 2 ^ 20 := by
  simp [field27to8, BitVec.extractLsb'_toNat, Nat.shiftRight_eq_div_pow]

theorem byteField_toNat (w : Word) : (byteField w).toNat = w.toNat % 2 ^ 8 := by
  simp [byteField, BitVec.extractLsb'_toNat]

theorem bitField_toNat (w : Word) : (bitField w).toNat = w.toNat % 2 := by
  simp [bitField, BitVec.extractLsb'_toNat]

/-- Everything the reserved-bit check can do. -/
theorem withReserved_eq_ok {n : Nat} {reserved : BitVec n} {opc : Nat} {i j : Instr} :
    withReserved reserved opc i = .ok j ↔ reserved.toNat = 0 ∧ j = i := by
  have h0 : reserved = 0 ↔ reserved.toNat = 0 :=
    ⟨fun h => by simp [h], fun h => BitVec.eq_of_toNat_eq (by simpa using h)⟩
  unfold withReserved
  split
  · rename_i h; simp only [h0.mp h, Except.ok.injEq, true_and, eq_comm]
  · rename_i h; simp only [mt h0.mpr h, false_and, reduceCtorEq]

end Sys2Proof
end

