-- ==== Sys2Proof/Laws/PerInstr.lean ====
section
/-! SUPPORT. Statements made of every command as syntax, one lemma per constructor. -/

namespace Sys2Proof.Laws.OpcodeField

/-- OPC of each command (spec/30_encoding.md R71). -/
def opcode : Instr → Nat
  | .crypt _ => 0x1
  | .xorb _ _ => 0x2
  | .tobits _ => 0x3
  | .frombits => 0x4
  | .frame => 0x5
  | .detect => 0x6
  | .capchk => 0x7
  | .wrbit _ => 0x8
  | .rdbit => 0x9
  | .map => 0xA
  | .hide => 0xB
  | .showCmd => 0xC

/-- Bits [31:28] of a command's word are its opcode, whatever its operands. -/
def Statement (i : Instr) : Prop := (opcOf (encode i)).toNat = opcode i

theorem crypt (d : Bit) : Statement (.crypt d) := by
  have := d.isLt
  rw [Statement, opcOf_toNat, encode, formatF1_toNat]
  simp only [BitVec.toNat_ofNat, opcode]; omega

theorem xorb (idx : Nat) (b : Byte) : Statement (.xorb idx b) := by
  have := b.isLt
  have := (BitVec.ofNat 20 idx).isLt
  rw [Statement, opcOf_toNat, encode, formatXB_toNat]
  simp only [BitVec.toNat_ofNat, opcode] at *; omega

theorem tobits (b : Byte) : Statement (.tobits b) := by
  have := b.isLt
  rw [Statement, opcOf_toNat, encode, formatB_toNat]
  simp only [BitVec.toNat_ofNat, opcode]; omega

theorem frombits : Statement .frombits := rfl
theorem frame : Statement .frame := rfl
theorem detect : Statement .detect := rfl
theorem capchk : Statement .capchk := rfl

theorem wrbit (v : Bit) : Statement (.wrbit v) := by
  have := v.isLt
  rw [Statement, opcOf_toNat, encode, formatF1_toNat]
  simp only [BitVec.toNat_ofNat, opcode]; omega

theorem rdbit : Statement .rdbit := rfl
theorem map : Statement .map := rfl
theorem hide : Statement .hide := rfl
theorem showCmd : Statement .showCmd := rfl

end Sys2Proof.Laws.OpcodeField
end

