-- ==== Sys2Proof/Tests/Slice0.lean ====
section
/-! SUPPORT. The model's own tests. Expected values are those of spec/95_test_vectors.md (its id stands in the
comment) or are computed by hand from the rules; the last part gives, for every statement with hypotheses, states and
operands that meet them. -/

namespace Sys2Proof.Machine.Tests

/-! ### Small states -/

/-- A small conforming block: PIX_CAP = 64. -/
def tiny : Config := { maxW := 8, maxH := 8, keyCap := 4, msgCap := 5, strCap := 8 }

/-- It after reset. -/
def fresh : State := State.resetOf tiny

/-- A memory of these elements from index 0 on. -/
def cells {w : Nat} (vs : List (BitVec w)) : Memory w := (List.range vs.length).zip vs

/-- A 5 by 8 grid of zeros, KEY = 6B, MSG = 48 69 (the set-up of V-ORC-2). -/
def loaded : State :=
  { fresh with width := 5, height := 8, klen := 1, key := cells [0x6B#8], mlen := 2, msg := cells [0x48#8, 0x69#8],
               pix := cells (List.replicate 40 0#32) }

/-- STR[0..SLEN) = x. -/
def withStream (s : State) (x : List Byte) : State := { s with slen := x.length, str := cells x }

/-- The state a command goes on with, or the state before it. -/
def after (i : Instr) (s : State) : State :=
  match exec i s with
  | .next t => t
  | .fault _ => s
  | .refused _ => s

/-- A command goes on, to a state with property `p`. -/
def goesOn (i : Instr) (s : State) (p : State → Bool) : Bool :=
  match exec i s with
  | .next t => p t
  | .fault _ => false
  | .refused _ => false

/-- `loaded` after HIDE. -/
def hidden : State := after .hide loaded

/-- `s` with the host about to do `op`. -/
def sending (s : State) (op : HostOp) : State := { s with inbox := [op] }

/-- The invariant holds, as a Bool. -/
def legal (s : State) : Bool := decide s.Inv

/-- How a step ended, as data that can be compared. -/
inductive Ends where
  | next (s : State)
  | fault (f : Fault)
  | refused (r : Refusal)
  deriving DecidableEq

def ends : Result → Ends
  | .next s => .next s
  | .fault f => .fault f
  | .refused r => .refused r

def stepEnds (s : State) : Ends := ends (step s)

def execEnds (i : Instr) (s : State) : Ends := ends (exec i s)

/-! ### Well-formedness, encoding, assembly -/

/-- R81: an index of 2^20 has no word. -/
theorem test_wellFormed_refuses_index : (Instr.xorb 1048576 0#8).WellFormed = false := by decide

theorem test_wellFormed_accepts_index : (Instr.xorb 1048575 0xFF#8).WellFormed = true := by decide

/-- Words written out bit by bit from R71 and R72. -/
theorem test_decode_cipher :
    decode 0b00010000000000000000000000000001#32 = .ok (.crypt 1#1) ∧
    decode 0b00100000000000000000010001000001#32 = .ok (.xorb 4 0x41#8) := by decide

theorem test_decode_bitcodec :
    decode 0b00110000000000000000000010100101#32 = .ok (.tobits 0xA5#8) ∧
    decode 0b01000000000000000000000000000000#32 = .ok .frombits := by decide

theorem test_decode_framer :
    decode 0b01010000000000000000000000000000#32 = .ok .frame ∧
    decode 0b01100000000000000000000000000000#32 = .ok .detect := by decide

theorem test_decode_pixelchannel :
    decode 0b01110000000000000000000000000000#32 = .ok .capchk ∧
    decode 0b10000000000000000000000000000001#32 = .ok (.wrbit 1#1) ∧
    decode 0b10010000000000000000000000000000#32 = .ok .rdbit ∧
    decode 0b10100000000000000000000000000000#32 = .ok .map := by decide

theorem test_decode_orchestration :
    decode 0b10110000000000000000000000000000#32 = .ok .hide ∧
    decode 0b11000000000000000000000000000000#32 = .ok .showCmd := by decide

/-- V-ILL-1 to V-ILL-12: the illegal words, each with the reason the table gives. -/
theorem test_decode_illegal :
    decode 0x00000000#32 = .error (.unassignedOpcode 0x0) ∧ decode 0xD0000000#32 = .error (.unassignedOpcode 0xD) ∧
    decode 0xE0000000#32 = .error (.unassignedOpcode 0xE) ∧ decode 0xF0000000#32 = .error (.unassignedOpcode 0xF) ∧
    decode 0x10000002#32 = .error (.reservedBitSet 0x1) ∧ decode 0x1FFFFFFF#32 = .error (.reservedBitSet 0x1) ∧
    decode 0x30000100#32 = .error (.reservedBitSet 0x3) ∧ decode 0x40000001#32 = .error (.reservedBitSet 0x4) ∧
    decode 0x80000002#32 = .error (.reservedBitSet 0x8) ∧ decode 0xB0000001#32 = .error (.reservedBitSet 0xB) ∧
    decode 0xC8000000#32 = .error (.reservedBitSet 0xC) ∧ decode 0xA0000001#32 = .error (.reservedBitSet 0xA) := by
  decide

/-- V-ENC-2 to V-ENC-5, the other way. -/
theorem test_encode :
    encode (.crypt 1#1) = 0x10000001#32 ∧ encode (.xorb 4 0x41#8) = 0x20000441#32 ∧
    encode (.xorb 1048575 0xFF#8) = 0x2FFFFFFF#32 ∧ encode (.tobits 0xA5#8) = 0x300000A5#32 := by decide

theorem test_decodeTableWord :
    decodeTableWord 32 0x2FFFFFFF = some (.xorb 1048575 0xFF#8) ∧ decodeTableWord 32 0xD0000000 = none := by decide

/-- R81: `XORB 4, 0x41`, a comment, and what the assembler refuses. -/
theorem test_assembleLine :
    assembleLine ['X', 'O', 'R', 'B', ' ', '4', ',', ' ', '0', 'x', '4', '1', ' ', ';', 'x'] =
      some (some (.xorb 4 0x41#8)) ∧
    assembleLine [';', 'x'] = some none ∧
    assembleLine ['W', 'R', 'B', 'I', 'T', ' ', '2'] = none ∧
    assembleLine ['D', 'E', 'C', 'R', 'Y', 'P', 'T'] = some (some (.crypt 1#1)) := by decide +kernel

/-- R83: `fill PIX, 7` on a grid of 2 pixels, and `wrmem KEY, 1, 8 9`. -/
theorem test_listing_ops :
    (ListingLine.fill 7).ops 2 = [.memWrite .pix 0 7, .memWrite .pix 1 7] ∧
    (ListingLine.wrmem .key 1 [8, 9]).ops 0 = [.memWrite .key 1 8, .memWrite .key 2 9] := by decide

/-- R186: a character above 255 is refused. -/
theorem test_textToBytes :
    textToBytes ['H', 'i'] = some [0x48#8, 0x69#8] ∧ textToBytes [Char.ofNat 256] = none := by decide +kernel

/-! ### The commands -/

/-- V-CIP-1: the key index wraps after 3 bytes. -/
theorem test_crypt_encrypts : goesOn (.crypt 0#1)
    { fresh with klen := 3, key := cells [0x6B#8, 0x65#8, 0x79#8], mlen := 5,
                 msg := cells (List.replicate 5 0x41#8) }
    (fun t => t.str = cells [0x2A#8, 0x24#8, 0x38#8, 0x2A#8, 0x24#8] ∧ t.slen = 5 ∧ t.err = .none) = true := by
  decide +kernel

/-- V-CIP-6 on this block: one byte more than MSG holds. -/
theorem test_crypt_overflow : goesOn (.crypt 1#1) { withStream fresh (List.replicate 6 0#8) with mlen := 3 }
    (fun t => t.err = .overflow ∧ t.mlen = 3 ∧ t.msg = []) = true := by decide +kernel

/-- V-CIP-9 and V-CIP-12. -/
theorem test_xorb :
    goesOn (.xorb 4 0x41#8) { fresh with klen := 3, key := cells [0x6B#8, 0x65#8, 0x79#8] }
      (fun t => t.res = 0x24#32) = true ∧
    goesOn (.xorb 1048575 0x41#8) { fresh with klen := 3, key := cells [0x6B#8, 0x65#8, 0x79#8] }
      (fun t => t.res = 0x2A#32) = true := by decide +kernel

/-- V-CIP-15. -/
theorem test_xorb_unwritten : execEnds (.xorb 1 0#8) { fresh with klen := 2, key := cells [0x6B#8] } =
    .fault (.unwritten .key 1) := by decide +kernel

/-- V-BIT-1. -/
theorem test_tobits : goesOn (.tobits 0xA5#8) fresh
    (fun t => t.bvrWord = 0x8A5#32 ∧ t.bitSeq = [1#1, 0#1, 1#1, 0#1, 0#1, 1#1, 0#1, 1#1]) = true := by decide +kernel

/-- V-BIT-2. -/
theorem test_frombits : goesOn .frombits { fresh with bv := 0xA5#8, bvlen := 8 }
    (fun t => t.str = cells [0xA5#8] ∧ t.slen = 1 ∧ t.res = 0xA5#32 ∧ t.bvrWord = 0#32) = true := by decide +kernel

/-- V-BIT-4: BITCOUNT before OVERFLOW. -/
theorem test_frombits_priority : goesOn .frombits { fresh with bv := 1#8, bvlen := 7, slen := 8 }
    (fun t => t.err = .bitcount ∧ t.bvlen = 7) = true := by decide +kernel

/-- V-FRM-2. -/
theorem test_frame : goesOn .frame (withStream fresh [0x23#8, 0x02#8])
    (fun t => t.str = cells [0x23#8, 0x02#8, 0x00#8, 0x00#8, 0x03#8] ∧ t.slen = 5) = true := by decide +kernel

/-- V-FRM-3 and V-FRM-4 on this block. -/
theorem test_frame_full :
    goesOn .frame { fresh with slen := 6 } (fun t => t.err = .overflow ∧ t.slen = 6 ∧ t.str = []) = true ∧
    goesOn .frame { fresh with slen := 5 } (fun t => t.err = .none ∧ t.slen = 8) = true := by decide +kernel

/-- V-FRM-5 and V-FRM-8. -/
theorem test_detect :
    goesOn .detect (withStream fresh [0x23#8, 0x02#8, 0x00#8, 0x00#8, 0x03#8])
      (fun t => t.det = true ∧ t.slen = 2 ∧ t.statusWord = 0x8#32) = true ∧
    goesOn .detect (withStream fresh [0x03#8, 0x00#8, 0x00#8]) (fun t => t.det = false ∧ t.slen = 3) = true := by
  decide +kernel

/-- V-FRM-15: all three tail bytes are read. -/
theorem test_detect_unwritten : execEnds .detect { fresh with slen := 3, str := cells [0x41#8, 0x41#8] } =
    .fault (.unwritten .str 2) := by decide +kernel

/-- V-PIX-3, and V-PIX-2's need on a grid of 39. -/
theorem test_capchk :
    goesOn .capchk { fresh with width := 5, height := 8, slen := 5 }
      (fun t => t.err = .none ∧ t.res = 0x28#32 ∧ t.res2 = 0x28#32) = true ∧
    goesOn .capchk { fresh with width := 3, height := 13, slen := 5 }
      (fun t => t.err = .capacity ∧ t.res = 0x28#32 ∧ t.res2 = 0x27#32) = true := by decide +kernel

/-- V-PIX-7, with its second WRBIT. -/
theorem test_wrbit :
    goesOn (.wrbit 0#1) { fresh with width := 1, height := 1, pix := cells [0xFFFFFFFF#32] }
      (fun t => t.pix = cells [0xFFFFFFFE#32] ∧ t.res = 0xFFFFFFFE#32 ∧ t.res2 = 0xFFFFFFFF#32 ∧ t.pos = 1) = true ∧
    goesOn (.wrbit 0#1) { fresh with width := 1, height := 1, pos := 1, pix := cells [0xFFFFFFFE#32] }
      (fun t => t.err = .capacity ∧ t.pos = 1) = true := by decide +kernel

/-- V-PIX-19. -/
theorem test_wrbit_unwritten : execEnds (.wrbit 0#1) { fresh with width := 1, height := 1 } =
    .fault (.unwritten .pix 0) := by decide +kernel

/-- V-PIX-10. -/
theorem test_rdbit : goesOn .rdbit
    { fresh with width := 2, height := 1, pix := cells [0x1#32, 0xA#32], bv := 1#8, bvlen := 1, pos := 1 }
    (fun t => t.bvrWord = 0x202#32 ∧ t.res = 0#32 ∧ t.pos = 2) = true := by decide +kernel

/-- V-PIX-11a: BITCOUNT before CAPACITY. -/
theorem test_rdbit_priority : goesOn .rdbit { fresh with width := 1, height := 1, pos := 1, bvlen := 8 }
    (fun t => t.err = .bitcount) = true := by decide +kernel

/-- V-PIX-17 on this block, and V-PIX-16. -/
theorem test_map :
    goesOn .map { fresh with width := 4, height := 4, pos := 15 } (fun t => t.res = 3#32 ∧ t.res2 = 3#32) = true ∧
    goesOn .map { fresh with width := 0, height := 5 } (fun t => t.err = .capacity) = true := by decide +kernel

/-- V-ORC-2: the carrier bits are those of V-SRC-2. -/
theorem test_hide : goesOn .hide loaded (fun t =>
    t.err = .none ∧ t.str = cells [0x23#8, 0x02#8, 0x00#8, 0x00#8, 0x03#8] ∧ t.slen = 5 ∧ t.res = 0x28#32 ∧
      t.res2 = 0x28#32 ∧ t.pos = 40 ∧
      (t.pix.filter fun c => c.2 ≠ 0#32) = [2, 6, 7, 14, 38, 39].map fun k => (k, 1#32)) = true := by decide +kernel

/-- V-SRC-1. -/
theorem test_hide_capacity : goesOn .hide
    { fresh with width := 2, height := 2, pix := cells [0xA#32, 0xB#32, 0xC#32, 0xD#32] } (fun t =>
    t.statusWord = 0x1#32 ∧ t.str = cells [0x00#8, 0x00#8, 0x03#8] ∧ t.slen = 3 ∧ t.res = 0x18#32 ∧ t.res2 = 0x4#32 ∧
      t.pix = cells [0xA#32, 0xB#32, 0xC#32, 0xD#32] ∧ t.pos = 0) = true := by decide +kernel

/-- V-SRC-3 on the grid of V-ORC-2, and V-SRC-4's wrong key. -/
theorem test_show :
    goesOn .showCmd hidden (fun t => t.statusWord = 0x8#32 ∧ t.slen = 2 ∧ t.mlen = 2 ∧ t.pos = 40 ∧
      t.msg = cells [0x48#8, 0x69#8]) = true ∧
    goesOn .showCmd { hidden with key := cells [0x6A#8] } (fun t => t.msg = cells [0x49#8, 0x68#8]) = true := by
  decide +kernel

/-- V-ORC-8. -/
theorem test_show_noframe : goesOn .showCmd
    { fresh with width := 4, height := 4, pix := cells (List.replicate 16 0#32) } (fun t =>
    t.err = .noframe ∧ t.slen = 2 ∧ t.str = cells [0x00#8, 0x00#8] ∧ t.pos = 16 ∧ t.det = false) = true := by
  decide +kernel

/-! ### The host port -/

/-- V-ILL-1 on a state with DET = 1. -/
theorem test_step_illegal : stepEnds (sending { fresh with det := true } (.regWrite 0x0 0)) =
    .next { fresh with det := true, err := .illegal } := by decide +kernel

/-- A program comes to run from reset with one host write (log entry 2). -/
theorem test_withFetchWord : stepEnds (State.reset.withFetchWord 32 0x300000A5) =
    .next { State.reset with bv := 0xA5#8, bvlen := 8 } := by decide +kernel

/-- R23: ERR = ILLEGAL with DET = 1 reads as 0xD. -/
theorem test_step_read_status : stepEnds (sending { fresh with det := true, err := .illegal } (.regRead 0x1)) =
    .next { fresh with det := true, err := .illegal, outbox := [0xD#32] } := by decide +kernel

/-- R185: KLEN above KEY_CAP is refused, and KEY_CAP is not. -/
theorem test_step_write_klen :
    stepEnds (sending fresh (.regWrite 0x4 5)) = .refused (.registerValueOutOfRange 0x4 5) ∧
    stepEnds (sending fresh (.regWrite 0x4 4)) = .next { fresh with klen := 4 } := by decide +kernel

/-- R190: Reset clears the fault mark; R182: an idle block keeps its state. -/
theorem test_step_reset_and_idle :
    stepEnds (sending { loaded with faultMark := true, pos := 3 } .reset) = .next fresh ∧ stepEnds loaded = .next loaded := by
  decide +kernel

/-- R187: a run whose fault mark is set has no final state. -/
theorem test_recorded_fault :
    (sending fresh (.memRead .pix 0)).recorded = { fresh with faultMark := true } ∧
    ({ fresh with faultMark := true } : State).observe = none := by decide +kernel

/-- R186: a whole Hide, from the host's point of view, ends with STATUS = 0 in the host's hands. -/
theorem test_hideFlow_ends :
    hideFlow 1 1 [7#32] [] [] = [.regWrite 0x2 1, .regWrite 0x3 1, .memWrite .pix 0 7, .regWrite 0x4 0,
      .regWrite 0x5 0, .regWrite 0x0 0xB0000000, .regRead 0x1] ∧
    afterHide 1 1 0x1#32 = some .reportTooSmall ∧ afterShow 0 0x2#32 = some .reportDecodeError := by decide +kernel

/-! ### Witnesses: what the statements assume can hold -/

theorem wit_inv : legal fresh ∧ legal loaded ∧ legal hidden ∧ tiny.Conforming ∧ Config.reference.Conforming := by
  decide +kernel

/-- AssemblerRefusesOutOfRange, at the ends of the ranges and with a wrong number of operands. -/
theorem wit_assembler :
    assembleOps .crypt [1] = some (.crypt 1#1) ∧ assembleOps .crypt [2] = none ∧
    assembleOps .xorb [1048575, 255] = some (.xorb 1048575 0xFF#8) ∧ assembleOps .xorb [1048576, 0] = none ∧
    assembleOps .xorb [0, 256] = none ∧ assembleOps .tobits [255] = some (.tobits 0xFF#8) ∧
    assembleOps .tobits [256] = none ∧ assembleOps .wrbit [1] = some (.wrbit 1#1) ∧
    assembleOps .wrbit [2] = none ∧ assembleOps .frame [] = some .frame ∧ assembleOps .frame [0] = none ∧
    assembleOps .crypt [] = none ∧ assembleOps .xorb [0] = none ∧ assembleOps .encrypt [0] = none := by decide

/-- StepRunsDecodedCommand, each clause. -/
theorem wit_step :
    (sending fresh (.regWrite 0x0 (0x50000000#32).toNat)).faultMark = false ∧ decode 0x50000000#32 = .ok .frame ∧
    (sending fresh (.regWrite 0x0 (encode (.xorb 1048575 0xFF#8)).toNat)).inbox =
      [.regWrite 0x0 (encode (.xorb 1048575 0xFF#8)).toNat] ∧
    (sending fresh (.regRead 0x0)).inbox = [.regRead 0x0] := by decide +kernel

/-- HostRegisterWriteSetsOnlyIt, each register at its largest value. -/
theorem wit_register_writes :
    stepEnds (sending fresh (.regWrite 0x2 8)) = .next { fresh with width := 8 } ∧
    stepEnds (sending fresh (.regWrite 0x3 8)) = .next { fresh with height := 8 } ∧
    stepEnds (sending fresh (.regWrite 0x4 4)) = .next { fresh with klen := 4 } ∧
    stepEnds (sending fresh (.regWrite 0x5 5)) = .next { fresh with mlen := 5 } ∧
    stepEnds (sending fresh (.regWrite 0x6 8)) = .next { fresh with slen := 8 } ∧
    stepEnds (sending fresh (.regWrite 0x7 64)) = .next { fresh with pos := 64 } := by decide +kernel

/-- HostRegisterReadAnswersFields, every register. -/
theorem wit_register_reads :
    ∀ r ∈ [0x1, 0x2, 0x3, 0x4, 0x5, 0x6, 0x7, 0x8, 0x9, 0xA], ((sending hidden (.regRead r)).registerNumber r).isSome ∧
      (sending hidden (.regRead r)).faultMark = false ∧ hidden.klen < 2 ^ 32 := by decide +kernel

/-- HostMemoryWriteThenRead, every memory at its last index, and an element nothing has written. -/
theorem wit_memory_access :
    3 < capacity fresh.cfg .key ∧ 4 < capacity fresh.cfg .msg ∧ 7 < capacity fresh.cfg .str ∧
    63 < capacity fresh.cfg .pix ∧ 4294967295 < 2 ^ 32 ∧ fresh.element .pix 63 = none ∧ fresh.faultMark = false := by
  decide +kernel

/-- HostViolationsAreRefused, one operation of each kind, at the ends of the ranges. -/
theorem wit_violations :
    stepEnds (sending fresh (.regWrite 0x1 0)) = .refused (.readOnlyRegister 0x1) ∧
    stepEnds (sending fresh (.regWrite 0x8 0)) = .refused (.readOnlyRegister 0x8) ∧
    stepEnds (sending fresh (.regWrite 0xA 0)) = .refused (.readOnlyRegister 0xA) ∧
    stepEnds (sending fresh (.regWrite 0xB 0)) = .refused (.unassignedRegister 0xB) ∧
    stepEnds (sending fresh (.regRead 0x0)) = .refused .readOfCmd ∧
    stepEnds (sending fresh (.regRead 0xB)) = .refused (.unassignedRegister 0xB) ∧
    stepEnds (sending fresh (.regWrite 0x2 9)) = .refused (.registerValueOutOfRange 0x2 9) ∧
    stepEnds (sending fresh (.regWrite 0x0 4294967296)) = .refused (.registerValueOutOfRange 0x0 4294967296) ∧
    stepEnds (sending fresh (.memWrite .pix 64 0)) = .refused (.memoryIndexOutOfRange .pix 64) ∧
    stepEnds (sending fresh (.memRead .key 4)) = .refused (.memoryIndexOutOfRange .key 4) ∧
    stepEnds (sending fresh (.memWrite .msg 0 256)) = .refused (.memoryValueOutOfRange .msg 256) := by decide +kernel

/-- HostReadsHaveNoSideEffect. -/
theorem wit_reads :
    stepEnds (sending loaded (.regRead 0x5)) = .next { loaded with outbox := [2#32] } ∧
    stepEnds (sending loaded (.memRead .msg 1)) = .next { loaded with outbox := [0x69#32] } := by decide +kernel

/-- FaultMarkedStateOnlyResets, each clause, and ResetOperationClearsEverything. -/
theorem wit_fault_mark :
    stepEnds (sending fresh (.memRead .pix 63)) = .fault (.unwritten .pix 63) ∧
    stepEnds (sending { fresh with faultMark := true } (.regRead 0x1)) = .fault .faultMarked ∧
    stepEnds (sending { fresh with faultMark := true } .reset) = .next fresh := by decide +kernel

/-- Every command goes on from a legal state: the whole-machine frames are about something. -/
theorem wit_every_command_goes_on :
    ∀ i ∈ [.crypt 0#1, .crypt 1#1, .xorb 1048575 0xFF#8, .tobits 0x00#8, .frombits, .frame, .detect, .capchk,
      .wrbit 0#1, .wrbit 1#1, .rdbit, .map, .hide, .showCmd], goesOn i loaded (fun t => t.faultMark = false) = true := by
  decide +kernel

/-- CommandsFaultOnlyOnUnwritten. -/
theorem wit_command_fault : execEnds .hide { loaded with pix := [] } = .fault (.unwritten .pix 0) := by decide +kernel

/-- CryptCiphersWholeBuffer, each clause. -/
theorem wit_crypt :
    (loaded.HasMessage [0x48#8, 0x69#8] ∧ loaded.HasKey 2 [0x6B#8]) ∧
    (legal (withStream loaded (List.replicate 5 0#8)) ∧ (withStream loaded (List.replicate 5 0#8)).slen ≤ tiny.msgCap ∧
      (withStream loaded (List.replicate 5 0#8)).HasStream (List.replicate 5 0#8)) ∧
    (legal { loaded with slen := 6 } ∧ tiny.msgCap < 6) ∧
    ({ loaded with key := [] } : State).firstUnwritten (cryptReads .msg 1 2 0) = some (.key, 0) ∧
    ({ loaded with slen := 5 } : State).firstUnwritten (cryptReads .str 1 5 0) = some (.str, 0) := by decide +kernel

/-- XorbCiphersOneByte, each clause. -/
theorem wit_xorb :
    fresh.klen = 0 ∧ (loaded.klen ≠ 0 ∧ loaded.key.read (1048575 % loaded.klen) = some 0x6B#8) ∧
    (legal { loaded with klen := 4 } ∧ loaded.key.read (1048575 % 4) = none) := by decide +kernel

/-- FrombitsAppendsByte, each clause. -/
theorem wit_frombits :
    legal { fresh with bv := 0x7F#8, bvlen := 7 } ∧ legal { fresh with bvlen := 8, slen := 8 } ∧
    legal { fresh with bv := 0xFF#8, bvlen := 8, slen := 7 } := by decide +kernel

/-- FrameAppendsMarker, each clause. -/
theorem wit_frame :
    (legal { fresh with slen := 6 } ∧ tiny.strCap < 6 + 3) ∧
    (legal (withStream fresh (List.replicate 5 0#8)) ∧ 5 + 3 ≤ tiny.strCap ∧ 5 ≤ tiny.msgCap ∧
      (withStream fresh (List.replicate 5 0#8)).HasStream (List.replicate 5 0#8)) := by decide +kernel

/-- DetectStripsMarker, each clause. -/
theorem wit_detect :
    legal { fresh with slen := 2 } ∧
    (legal (withStream fresh [0x00#8, 0x00#8, 0x03#8]) ∧
      (withStream fresh [0x00#8, 0x00#8, 0x03#8]).str.read 2 = some 0x03#8) ∧
    (legal (withStream fresh [0x00#8, 0x00#8, 0x00#8])) ∧
    (legal { fresh with slen := 3, str := cells [0x41#8, 0x41#8] } ∧
      ({ fresh with slen := 3, str := cells [0x41#8, 0x41#8] } : State).firstUnwritten
        [(.str, 0), (.str, 1), (.str, 2)] = some (.str, 2)) := by decide +kernel

/-- WrbitWritesCarrierBit, RdbitAppendsCarrierBit and MapGivesRasterPosition, each clause, at the last pixel. -/
theorem wit_carrier :
    legal { loaded with pos := 40 } ∧
    (legal { loaded with pos := 39 } ∧ ({ loaded with pos := 39 } : State).carrierWord = 39 ∧
      loaded.pix.read 39 = some 0#32) ∧
    (legal { loaded with pos := 39, pix := [] } ∧ ({ loaded with pix := [] } : State).pix.read 39 = none) ∧
    legal { loaded with bvlen := 8, bv := 0xFF#8 } ∧ legal { loaded with bvlen := 7, bv := 0x7F#8, pos := 39 } := by
  decide +kernel

/-- HideEmbedsFramedCiphertext, each clause: one bit too few, an exact fit, an unwritten byte and an unwritten word. -/
theorem wit_hide :
    (legal { loaded with width := 3, height := 8 } ∧ 3 * 8 < (loaded.mlen + 3) * 8) ∧
    ((loaded.mlen + 3) * 8 ≤ loaded.width * loaded.height ∧ loaded.GridLoaded ((loaded.mlen + 3) * 8)) ∧
    ({ loaded with msg := cells [0x48#8] } : State).firstUnwritten (cryptReads .msg 1 2 0) = some (.msg, 1) ∧
    ({ loaded with pix := [] } : State).firstUnwritten (cryptReads .msg 1 2 0 ++ pixReads 40 0) =
      some (.pix, 0) := by decide +kernel

/-- A block whose MSG holds one byte, its grid that of `hidden`. -/
def short : State := { hidden with cfg := { tiny with msgCap := 1 }, msg := [], mlen := 0 }

/-- ShowDecodesUpToFirstMarker, each clause. -/
theorem wit_show :
    ((2 + 3) * 8 ≤ hidden.width * hidden.height ∧ hidden.GridSpells (frame [0x23#8, 0x02#8]) ∧
      NoMarkerUpTo 4 (frame [0x23#8, 0x02#8]) ∧ 2 ≤ tiny.msgCap ∧ hidden.HasKey 2 [0x6B#8]) ∧
    (legal { hidden with key := [] } ∧ ({ hidden with key := [] } : State).firstUnwritten [(.key, 0), (.key, 0)] =
      some (.key, 0)) ∧
    (legal short ∧ short.GridSpells (frame [0x23#8, 0x02#8]) ∧ short.cfg.msgCap < 2) ∧
    (loaded.GridSpells (List.replicate 5 0#8) ∧ NoMarkerUpTo 5 (List.replicate 5 0#8) ∧
      5 = loaded.width * loaded.height / 8) ∧
    (legal { loaded with pix := cells (List.replicate 39 0#32) } ∧
      ({ loaded with pix := cells (List.replicate 39 0#32) } : State).GridSpells (List.replicate 4 0#8) ∧
      NoMarkerUpTo 4 (List.replicate 4 0#8) ∧ (4 + 1) * 8 ≤ loaded.width * loaded.height ∧
      ({ loaded with pix := cells (List.replicate 39 0#32) } : State).firstUnwritten (pixReads 8 32) =
        some (.pix, 39)) := by decide +kernel

/-- CryptLaws, its last clause: lists that differ elsewhere. -/
theorem wit_crypt_laws :
    ([1#8, 2#8] : List Byte)[1]? = ([9#8, 2#8] : List Byte)[1]? ∧
    ([3#8, 4#8] : List Byte)[1 % 2]? = ([7#8, 4#8] : List Byte)[1 % 2]? := by decide

/-- MarkerFreeStreamStopsOnlyAtItsEnd: a stream that ends in the marker's first two bytes. -/
theorem wit_marker_free : MarkerFree [0x41#8, 0x00#8, 0x00#8] ∧ MarkerFree ([] : List Byte) := by decide

/-- PixelFunctionLaws and ScanOrderIsRowMajor, at the last pixel. -/
theorem wit_pixels : 39 < 5 * 8 ∧ mapPos 39 5 = { x := 4, y := 7, bit := 0 } ∧ 0 < 5 * 8 := by decide

/-- The message 00 00 03 under the empty key: the ciphertext holds the marker. -/
def cut : State :=
  { fresh with width := 6, height := 8, mlen := 3, msg := cells [0x00#8, 0x00#8, 0x03#8],
               pix := cells (List.replicate 48 0#32) }

/-- HideThenShowRoundTrip and HideCapacityBoundary: both cases of the ciphertext. -/
theorem wit_round_trip :
    (loaded.GridLoaded (loaded.width * loaded.height) ∧ MarkerFree (crypt [0x48#8, 0x69#8] [0x6B#8]) ∧
      (2 + 3) * 8 ≤ loaded.width * loaded.height) ∧
    (legal cut ∧ cut.HasMessage [0x00#8, 0x00#8, 0x03#8] ∧ cut.HasKey 3 [] ∧ cut.GridLoaded (cut.width * cut.height) ∧
      (3 + 3) * 8 ≤ cut.width * cut.height ∧ eomAt ((crypt [0x00#8, 0x00#8, 0x03#8] []).take 3) = true ∧
      ∀ k < 3, eomAt ((crypt [0x00#8, 0x00#8, 0x03#8] []).take k) = false) := by decide +kernel

/-- HideCapacityBoundary, the side that fails. -/
theorem wit_capacity_boundary : goesOn .hide { loaded with width := 3, height := 8 }
    (fun t => t.err = .capacity) = true := by decide +kernel

/-- ShowWithWrongKey: both runs go on, and the second clause's grid. -/
theorem wit_wrong_key :
    goesOn .showCmd hidden (fun t => t.err = .none) = true ∧
    goesOn .showCmd { hidden with klen := 2, key := cells [0x6A#8, 0x6B#8] } (fun t => t.err = .none) = true ∧
    hidden.GridSpells (frame (crypt [0x48#8, 0x69#8] [0x6B#8])) ∧
    ({ hidden with klen := 2, key := cells [0x6A#8, 0x6B#8] } : State).HasKey 2 [0x6A#8, 0x6B#8] := by decide +kernel

/-- HideIsItsPrimitiveSequence and ShowIsItsPrimitiveSequence. -/
theorem wit_sequences :
    loaded.pos = 0 ∧ goesOn .hide loaded (fun t => t.err = .none) = true ∧
    (legal { hidden with slen := 0, pos := 0 } ∧ hidden.bvlen = 0) ∧
    goesOn .showCmd { hidden with slen := 0, pos := 0 } (fun t => t.err = .none) = true := by decide +kernel

/-- EightRdbitsAssembleByte: the first byte of the grid of V-ORC-2 is 0x23. -/
theorem wit_eight_rdbits :
    legal { hidden with pos := 0 } ∧ hidden.bvlen = 0 ∧ 0 + 8 ≤ hidden.width * hidden.height ∧
    ∀ j < 8, (hidden.pix.read (0 + j)).map readBit = some (BitVec.ofBool ((0x23#8).getLsbD (7 - j))) := by
  decide +kernel

/-- EmptyGridHasNoCapacity. -/
theorem wit_empty_grid :
    fresh.width * fresh.height = 0 ∧ fresh.HasMessage [] ∧ fresh.HasKey 0 [] ∧ fresh.bvlen ≠ 8 ∧
    (legal { fresh with width := 8, slen := 8 } ∧ 8 * fresh.height = 0) := by decide +kernel

end Sys2Proof.Machine.Tests
end

section
/-! PROOFS. The family 10_state.md: the decoder on the words of the formats, the step at a command word (R33), and
what every command does with STATUS.ERR and STATUS.DET (R24). -/

namespace Sys2Proof

/-! ### The fields of the words of each format (30_encoding.md R72) -/

@[simp] theorem opcOf_formatN (opc : BitVec 4) : opcOf (formatN opc) = opc := by
  apply BitVec.eq_of_toNat_eq
  rw [opcOf_toNat, formatN_toNat]
  omega

@[simp] theorem reservedN_formatN (opc : BitVec 4) : reservedN (formatN opc) = 0#28 := by
  apply BitVec.eq_of_toNat_eq
  rw [reservedN_toNat, formatN_toNat, BitVec.toNat_ofNat]
  omega

@[simp] theorem opcOf_formatF1 (opc : BitVec 4) (v : Bit) : opcOf (formatF1 opc v) = opc := by
  have := v.isLt
  apply BitVec.eq_of_toNat_eq
  rw [opcOf_toNat, formatF1_toNat]
  omega

@[simp] theorem reservedF1_formatF1 (opc : BitVec 4) (v : Bit) : reservedF1 (formatF1 opc v) = 0#27 := by
  have := v.isLt
  apply BitVec.eq_of_toNat_eq
  rw [reservedF1_toNat, formatF1_toNat, BitVec.toNat_ofNat]
  omega

@[simp] theorem bitField_formatF1 (opc : BitVec 4) (v : Bit) : bitField (formatF1 opc v) = v := by
  have := v.isLt
  apply BitVec.eq_of_toNat_eq
  rw [bitField_toNat, formatF1_toNat]
  omega

@[simp] theorem opcOf_formatXB (opc : BitVec 4) (idx : BitVec 20) (b : Byte) : opcOf (formatXB opc idx b) = opc := by
  have := b.isLt
  have := idx.isLt
  apply BitVec.eq_of_toNat_eq
  rw [opcOf_toNat, formatXB_toNat]
  omega

@[simp] theorem field27to8_formatXB (opc : BitVec 4) (idx : BitVec 20) (b : Byte) :
    field27to8 (formatXB opc idx b) = idx := by
  have := b.isLt
  have := idx.isLt
  apply BitVec.eq_of_toNat_eq
  rw [field27to8_toNat, formatXB_toNat]
  omega

@[simp] theorem byteField_formatXB (opc : BitVec 4) (idx : BitVec 20) (b : Byte) :
    byteField (formatXB opc idx b) = b := by
  have := b.isLt
  apply BitVec.eq_of_toNat_eq
  rw [byteField_toNat, formatXB_toNat]
  omega

/-- Format B is format XB with the index field reserved. -/
theorem formatB_eq_formatXB (opc : BitVec 4) (b : Byte) : formatB opc b = formatXB opc 0#20 b := rfl

@[simp] theorem opcOf_formatB (opc : BitVec 4) (b : Byte) : opcOf (formatB opc b) = opc := by
  rw [formatB_eq_formatXB, opcOf_formatXB]

@[simp] theorem field27to8_formatB (opc : BitVec 4) (b : Byte) : field27to8 (formatB opc b) = 0#20 := by
  rw [formatB_eq_formatXB, field27to8_formatXB]

@[simp] theorem byteField_formatB (opc : BitVec 4) (b : Byte) : byteField (formatB opc b) = b := by
  rw [formatB_eq_formatXB, byteField_formatXB]

@[simp] theorem withReserved_zero {n : Nat} (opc : Nat) (i : Instr) : withReserved 0#n opc i = .ok i :=
  if_pos rfl

/-- The word of a well-formed command decodes to it: an index of fewer than 2^20 is its own field (R81). -/
theorem decode_encode {i : Instr} (h : i.WellFormed = true) : decode (encode i) = .ok i := by
  cases i with
  | crypt d => simp [encode, decode]
  | xorb idx b => simpa [encode, decode, Instr.WellFormed] using h
  | tobits b => simp [encode, decode]
  | wrbit v => simp [encode, decode]
  | frombits | frame | detect | capchk | rdbit | map | hide | showCmd => simp [encode, decode]

end Sys2Proof

namespace Sys2Proof.Machine

/-! ### The step at a command word (10_state.md R33) -/

/-- The step at a host write of a 32-bit word to CMD issues that word. -/
theorem step_regWrite_cmd {s : State} {w : Word} {rest : List HostOp} (hm : s.faultMark = false)
    (hin : s.inbox = .regWrite 0x0 w.toNat :: rest) : step s = issue w { s with inbox := rest } := by
  simp [step, hin, perform, unlessMarked, hm, regWrite, RegId.ofIndex, w.isLt]

/-- The step at a host read of CMD is refused. -/
theorem step_regRead_cmd {s : State} {rest : List HostOp} (hm : s.faultMark = false)
    (hin : s.inbox = .regRead 0x0 :: rest) : step s = .refused .readOfCmd := by
  simp [step, hin, perform, unlessMarked, hm, regRead, RegId.ofIndex]

/-- A word that decodes to a command runs it. -/
theorem issue_of_decode {w : Word} {i : Instr} (h : decode w = .ok i) (s : State) : issue w s = exec i s := by
  simp [issue, h]

/-- Settles O6: the step issues the word, the word decodes to the command, and the command runs. -/
theorem stepRunsDecodedCommand : Obligations.StepRunsDecodedCommand := by
  unfold Obligations.StepRunsDecodedCommand
  refine ⟨fun s i w rest hm hin hw => ?_, fun s i rest hm hin hwf => ?_, fun s rest hm hin => ?_⟩
  · rw [step_regWrite_cmd hm hin, issue_of_decode hw]
  · rw [step_regWrite_cmd hm hin, issue_of_decode (decode_encode hwf)]
  · exact step_regRead_cmd hm hin

/-! ### ERR before a command (10_state.md R24) -/

/-- Going on from a mapped part is going on from the part with the map in between. -/
theorem andThen_map {α β : Type} (f : α → β) (x : Except Fault α) (k : β → Result) :
    andThen (x.map f) k = andThen x fun a => k (f a) := by
  cases x <;> rfl

theorem writePix_setErr (e : ErrCode) (s : State) (i : Nat) (v : Word) :
    State.writePix { s with err := e } i v = (s.writePix i v).map fun t => { t with err := e } := by
  simp only [State.writePix, store]; split <;> rfl

/-- The setErr lemmas carry the old ERR to the end of each command, where `finish`, `done` or `raise` overwrites it. -/
theorem execCrypt_setErr (d : Bit) (s : State) (e : ErrCode) : execCrypt d { s with err := e } = execCrypt d s := by
  simp only [execCrypt, encryptMsg_setErr, decryptStr_setErr, finish_setErr, raise_eq]

theorem execFrombits_setErr (s : State) (e : ErrCode) : execFrombits { s with err := e } = execFrombits s := by
  simp only [execFrombits, writeStr_setErr, andThen_map, raise_eq, done_eq]

theorem execFrame_setErr (s : State) (e : ErrCode) : execFrame { s with err := e } = execFrame s := by
  simp only [execFrame, appendEom_setErr, finish_setErr, raise_eq]

theorem execWrbit_setErr (v : Bit) (s : State) (e : ErrCode) : execWrbit v { s with err := e } = execWrbit v s := by
  have hc : State.carrierWord { s with err := e } = s.carrierWord := rfl
  have hr (i : Nat) : State.readPix { s with err := e } i = s.readPix i := rfl
  simp only [execWrbit, hc, hr, writePix_setErr, andThen_map, raise_eq, done_eq]
  rfl

/-- HIDE: ERR passes through encryption, framing and embedding, and the capacity test does not see it. -/
theorem execHide_setErr (s : State) (e : ErrCode) : execHide { s with err := e } = execHide s := by
  simp only [execHide, encryptMsg_setErr, andThen_map, appendEom_setErr, raise_eq]
  refine congrArg _ (funext fun enc => congrArg _ (funext fun framed => ite_congr rfl (fun _ => ?_) fun _ => rfl))
  exact (congrArg finish (embedBytes_setErr e _ 0 { recordCapacity framed with pos := 0 })).trans (finish_setErr e _)

/-- SHOW: what it decodes does not depend on ERR, and neither does the decryption after a hit. -/
theorem execShow_setErr (s : State) (e : ErrCode) : execShow { s with err := e } = execShow s := by
  rw [execShow_eq, execShow_eq, showBytes_congr (s := s) (t := { s with err := e }) rfl rfl rfl rfl]
  refine congrArg _ (funext fun r => ite_congr rfl (fun _ => ite_congr rfl (fun _ => rfl) fun _ => ?_) fun _ => rfl)
  exact (congrArg finish (decryptStr_setErr e { shown s r.2 with slen := r.2.length - 3, det := true })).trans
    (finish_setErr e _)

/-- No command reads ERR, and each overwrites it; those that pass ERR through no loop or write do so by computation. -/
theorem exec_setErr (i : Instr) (s : State) (e : ErrCode) : exec i { s with err := e } = exec i s := by
  cases i with
  | crypt d => exact execCrypt_setErr d s e
  | frombits => exact execFrombits_setErr s e
  | frame => exact execFrame_setErr s e
  | wrbit v => exact execWrbit_setErr v s e
  | hide => exact execHide_setErr s e
  | showCmd => exact execShow_setErr s e
  | xorb | tobits | detect | capchk | rdbit | map => rfl

/-! ### ERR and DET after a command (10_state.md R24; 60_exceptions.md R170) -/

/-- The error codes of the column "raised by" of R170 that name the command. -/
def raisedCodes : Instr → List ErrCode
  | .crypt d => if d = 1#1 then [.overflow] else []
  | .frombits => [.bitcount, .overflow]
  | .frame => [.overflow]
  | .capchk | .wrbit _ | .map | .hide => [.capacity]
  | .rdbit => [.bitcount, .capacity]
  | .showCmd => [.noframe, .overflow]
  | .xorb _ _ | .tobits _ | .detect => []

/-- A command that goes on leaves ERR at NONE or at a code it raises, and DET as it was unless it is DETECT or SHOW. -/
theorem exec_next_status {i : Instr} {s t : State} (h : exec i s = .next t) :
    t.err ∈ .none :: raisedCodes i ∧ (t.det = s.det ∨ i = .detect ∨ i = .showCmd) := by
  cases i with
  | crypt d =>
    rcases bit_cases d with rfl | rfl
    · obtain ⟨m, rfl⟩ := exec_crypt_zero_next h
      simp
    · obtain rfl | ⟨m, rfl⟩ := exec_crypt_one_next h <;> simp [raisedCodes]
  | xorb idx b =>
    obtain ⟨r, rfl⟩ := exec_xorb_next h
    simp
  | tobits b =>
    obtain rfl : _ = t := by simpa [exec, execTobits] using h
    simp
  | frombits => obtain rfl | rfl | ⟨v, -, rfl⟩ := exec_frombits_next h <;> simp [raisedCodes]
  | frame => obtain rfl | ⟨-, rfl⟩ := exec_frame_next h <;> simp [raisedCodes]
  | detect => obtain rfl | rfl := exec_detect_next h <;> simp
  | capchk =>
    obtain rfl := exec_capchk_next h
    by_cases hc : s.slen * 8 ≤ s.gridBits <;> simp [raisedCodes, hc]
  | wrbit v => obtain rfl | ⟨c, -, -, -, rfl⟩ := exec_wrbit_next h <;> simp [raisedCodes]
  | rdbit => obtain rfl | rfl | ⟨c, -, -, rfl⟩ := exec_rdbit_next h <;> simp [raisedCodes]
  | map => obtain rfl | ⟨r, r2, rfl⟩ := exec_map_next h <;> simp [raisedCodes]
  | hide => obtain ⟨m, -, -, ⟨-, rfl⟩ | ⟨-, p, -, rfl⟩⟩ := exec_hide_next h <;> simp [raisedCodes]
  | showCmd =>
    obtain ⟨hit, x, -, ⟨-, rfl⟩ | ⟨-, -, -, rfl⟩ | ⟨-, -, -, -, m, rfl⟩⟩ := exec_show_next h <;> simp [raisedCodes]

/-- Settles O20: no command reads ERR, and each one's own lemma gives the codes it ends with and that it keeps DET. -/
theorem errIsWrittenByEveryCommandAndDetIsKept : Obligations.ErrIsWrittenByEveryCommandAndDetIsKept := by
  unfold Obligations.ErrIsWrittenByEveryCommandAndDetIsKept
  refine ⟨exec_setErr, fun i s t h hd hs => ?_, fun i s t h => ?_⟩
  · simpa [hd, hs] using (exec_next_status h).2
  · have herr := (exec_next_status h).1
    cases i <;> simpa [raisedCodes] using herr

end Sys2Proof.Machine
end

section
/-! PROOFS. The family 20_memory.md: host reads (R57), and what commands write in PIX (R66). -/

namespace Sys2Proof.Machine

/-! ### Host reads (20_memory.md R57) -/

/-- The read `rd` gives the host the value `v` from `s`, whatever the host's queues hold, and changes nothing else. -/
def ReadsAs (rd : State → Result) (s : State) (v : Word) : Prop :=
  ∀ pending answers, rd { s with inbox := pending, outbox := answers } =
    .next { s with inbox := pending, outbox := v :: answers }

/-- A register read that completes shows the register, which no queue is part of. -/
theorem regRead_readsAs {r : Nat} {s t : State} (h : regRead r s = .next t) : ∃ v, ReadsAs (regRead r) s v := by
  cases hr : RegId.ofIndex r with
  | none => simp [regRead, hr] at h
  | some reg =>
    cases reg with
    | cmd => simp [regRead, hr] at h
    | status => exact ⟨s.statusWord, fun _ _ => by simp only [regRead, hr]; rfl⟩
    | bvr => exact ⟨s.bvrWord, fun _ _ => by simp only [regRead, hr]; rfl⟩
    | width | height | klen | mlen | slen | pos | res | res2 =>
      exact ⟨_, fun _ _ => by simp only [regRead, hr]; rfl⟩

/-- A memory read that completes shows a written element, and the memories do not depend on the queues. -/
theorem memRead_readsAs {m : MemId} {i : Nat} {s t : State} (h : memRead m i s = .next t) :
    ∃ v, ReadsAs (memRead m i) s v := by
  have hel (pending answers) : State.element { s with inbox := pending, outbox := answers } m i = s.element m i := by
    cases m <;> rfl
  unfold memRead at h
  split at h
  next hi =>
    cases he : s.element m i with
    | none => simp [he] at h
    | some v => exact ⟨v, fun pending answers => by simp [memRead, hi, hel, he, answer]⟩
  next => simp at h

/-- A read passes the test of the fault mark, which is not a queue. -/
theorem ReadsAs.unlessMarked {rd : State → Result} {s : State} {v : Word} (h : ReadsAs rd s v)
    (hm : s.faultMark = false) : ReadsAs (fun u => unlessMarked u (rd u)) s v := fun pending answers =>
  (unlessMarked_clear hm _).trans (h pending answers)

/-- A host read that completes gives one value in every state that differs in the queues alone. -/
theorem perform_readsAs {op : HostOp} {s t : State} (hop : (∃ r, op = .regRead r) ∨ ∃ m i, op = .memRead m i)
    (h : perform op s = .next t) : ∃ v, ReadsAs (perform op) s v := by
  rcases hop with ⟨r, rfl⟩ | ⟨m, i, rfl⟩
  · obtain ⟨hm, h⟩ := unlessMarked_eq_next.mp h
    exact (regRead_readsAs h).imp fun v hv => hv.unlessMarked hm
  · obtain ⟨hm, h⟩ := unlessMarked_eq_next.mp h
    exact (memRead_readsAs h).imp fun v hv => hv.unlessMarked hm

/-- Settles O13: the step performs the read, whose value is the same for the queues it found and for any others. -/
theorem hostReadsHaveNoSideEffect : Obligations.HostReadsHaveNoSideEffect := by
  unfold Obligations.HostReadsHaveNoSideEffect
  intro s t op rest hop hin h
  have hp : perform op { s with inbox := rest } = .next t := by simpa [step, hin] using h
  obtain ⟨v, hv⟩ := perform_readsAs hop hp
  exact ⟨v, Host.Outcome.next.inj (hp.symm.trans (hv rest s.outbox)), hv⟩

/-! ### What commands write in PIX (20_memory.md R66) -/

/-- Writing a carrier bit leaves bits 31..1. -/
theorem writeBit_ushiftRight_one (c : Word) (v : Bit) : writeBit c v >>> 1 = c >>> 1 := by
  apply BitVec.eq_of_getLsbD_eq
  intro i _
  rw [BitVec.getLsbD_ushiftRight, BitVec.getLsbD_ushiftRight]
  by_cases h : 1 + i < 32
  · rw [writeBit_getLsbD c v _ h, if_neg (by omega)]
  · rw [BitVec.getLsbD_of_ge _ _ (by omega), BitVec.getLsbD_of_ge _ _ (by omega)]

/-- `q` is `p` with other carrier bits in some of the words below `n`. -/
def CarrierUpdate (n : Nat) (p q : Memory 32) : Prop :=
  ∀ k, q.read k = p.read k ∨ k < n ∧ ∃ v, q.read k = (p.read k).map (writeBit · v)

section
variable {n k : Nat} {p q : Memory 32}

theorem CarrierUpdate.of_eq (h : q = p) : CarrierUpdate n p q := fun _ => .inl (h ▸ rfl)

theorem CarrierUpdate.read_of_le (h : CarrierUpdate n p q) (hk : n ≤ k) : q.read k = p.read k :=
  (h k).resolve_right fun ⟨hlt, _⟩ => Nat.not_lt.mpr hk hlt

theorem CarrierUpdate.read_of_some {c : Word} (h : CarrierUpdate n p q) (hk : p.read k = some c) :
    ∃ c', q.read k = some c' ∧ c' >>> 1 = c >>> 1 := by
  rcases h k with h | ⟨-, v, h⟩
  · exact ⟨c, h.trans hk, rfl⟩
  · exact ⟨writeBit c v, by rw [h, hk]; rfl, writeBit_ushiftRight_one c v⟩

theorem CarrierUpdate.read_of_none (h : CarrierUpdate n p q) (hk : p.read k = none) : q.read k = none := by
  rcases h k with h | ⟨-, v, h⟩ <;> rw [h, hk]
  rfl
end

/-- WRBIT writes the carrier bit of word POS, which is below WIDTH * HEIGHT where it does not raise CAPACITY. -/
theorem exec_wrbit_carrierUpdate {v : Bit} {s t : State} (h : exec (.wrbit v) s = .next t) :
    CarrierUpdate s.gridBits s.pix t.pix := by
  obtain rfl | ⟨c, hpos, -, hc, rfl⟩ := exec_wrbit_next h
  · exact .of_eq rfl
  · rw [← carrierWord_eq_pos s] at hpos
    intro k
    by_cases hk : k = s.carrierWord
    · subst hk; exact .inr ⟨hpos, v, by simp [hc]⟩
    · exact .inl (Memory.read_write_other hk _ _)

/-- HIDE embeds from word 0 on as many carrier bits as its capacity test has let through. -/
theorem exec_hide_carrierUpdate {s t : State} (h : exec .hide s = .next t) :
    CarrierUpdate s.gridBits s.pix t.pix := by
  obtain ⟨m, -, -, ⟨-, rfl⟩ | ⟨hcap, p, hemb, rfl⟩⟩ := exec_hide_next h
  · exact .of_eq rfl
  · obtain ⟨vs, hlen, hbits⟩ := embedBytes_bits hemb
    intro k
    have hread := (embedBits_pix hbits).1 k
    dsimp only at hread ⊢
    rw [hread]
    split
    next hk => exact .inr ⟨by omega, _, rfl⟩
    next => exact .inl rfl

/-- Every other command leaves PIX, by what it can do when it goes on. -/
theorem exec_next_pix {i : Instr} {s t : State} (h : exec i s = .next t) (hw : ∀ v, i ≠ .wrbit v) (hh : i ≠ .hide) :
    t.pix = s.pix := by
  cases i with
  | crypt d =>
    rcases bit_cases d with rfl | rfl
    · obtain ⟨m, rfl⟩ := exec_crypt_zero_next h
      rfl
    · obtain rfl | ⟨m, rfl⟩ := exec_crypt_one_next h <;> rfl
  | xorb idx b =>
    obtain ⟨r, rfl⟩ := exec_xorb_next h
    rfl
  | tobits b =>
    obtain rfl : _ = t := by simpa [exec, execTobits] using h
    rfl
  | frombits => obtain rfl | rfl | ⟨v, -, rfl⟩ := exec_frombits_next h <;> rfl
  | frame => obtain rfl | ⟨-, rfl⟩ := exec_frame_next h <;> rfl
  | detect => obtain rfl | rfl := exec_detect_next h <;> rfl
  | capchk =>
    obtain rfl := exec_capchk_next h
    rfl
  | wrbit v => exact absurd rfl (hw v)
  | rdbit => obtain rfl | rfl | ⟨c, -, -, rfl⟩ := exec_rdbit_next h <;> rfl
  | map => obtain rfl | ⟨r, r2, rfl⟩ := exec_map_next h <;> rfl
  | hide => exact absurd rfl hh
  | showCmd =>
    obtain ⟨hit, x, -, ⟨-, rfl⟩ | ⟨-, -, -, rfl⟩ | ⟨-, -, -, -, m, rfl⟩⟩ := exec_show_next h <;> rfl

/-- A command that goes on changes at most carrier bits of words in the grid. -/
theorem exec_carrierUpdate {i : Instr} {s t : State} (h : exec i s = .next t) :
    CarrierUpdate s.gridBits s.pix t.pix := by
  by_cases hw : ∃ v, i = .wrbit v
  · obtain ⟨v, rfl⟩ := hw
    exact exec_wrbit_carrierUpdate h
  · by_cases hh : i = .hide
    · subst hh
      exact exec_hide_carrierUpdate h
    · exact .of_eq (exec_next_pix h (not_exists.mp hw) hh)

/-- Settles O19: every command makes a carrier update of the grid, and all but WRBIT and HIDE make none. -/
theorem onlyWrbitAndHideWritePix : Obligations.OnlyWrbitAndHideWritePix := by
  unfold Obligations.OnlyWrbitAndHideWritePix
  intro i s t h
  have hu := exec_carrierUpdate h
  exact ⟨exec_next_pix h, fun _ => hu.read_of_le, fun _ _ => hu.read_of_some, fun _ => hu.read_of_none⟩

end Sys2Proof.Machine
end

section
/-! PROOFS. The family 30_encoding.md: the decoder as the inverse of the encoder (R80), the formats as match and mask
(R72), and the illegal words (R78, R79). -/

namespace Sys2Proof

/-! ### The decoder's inverse (30_encoding.md R78 to R80) -/

/-- A word with reserved bits 0 is its format's word of its own fields; first format N, then F1, XB and B. -/
theorem formatN_eq_of_fields {w : Word} {opc : BitVec 4} (ho : (opcOf w).toNat = opc.toNat)
    (hr : (reservedN w).toNat = 0) : formatN opc = w := by
  apply BitVec.eq_of_toNat_eq
  rw [opcOf_toNat] at ho
  rw [reservedN_toNat] at hr
  rw [formatN_toNat]
  omega

theorem formatF1_eq_of_fields {w : Word} {opc : BitVec 4} (ho : (opcOf w).toNat = opc.toNat)
    (hr : (reservedF1 w).toNat = 0) : formatF1 opc (bitField w) = w := by
  apply BitVec.eq_of_toNat_eq
  rw [opcOf_toNat] at ho
  rw [reservedF1_toNat] at hr
  rw [formatF1_toNat, bitField_toNat]
  omega

theorem formatXB_eq_of_fields {w : Word} {opc : BitVec 4} (ho : (opcOf w).toNat = opc.toNat) :
    formatXB opc (field27to8 w) (byteField w) = w := by
  apply BitVec.eq_of_toNat_eq
  rw [opcOf_toNat] at ho
  rw [formatXB_toNat, field27to8_toNat, byteField_toNat]
  omega

theorem formatB_eq_of_fields {w : Word} {opc : BitVec 4} (ho : (opcOf w).toNat = opc.toNat)
    (hr : (field27to8 w).toNat = 0) : formatB opc (byteField w) = w := by
  rw [formatB_eq_formatXB, ← BitVec.eq_of_toNat_eq (y := 0#20) hr, formatXB_eq_of_fields ho]

/-- What a word decodes to is well-formed, and the word is its encoding: one case per opcode, by format. -/
theorem encode_of_decode {w : Word} {i : Instr} (h : decode w = .ok i) : i.WellFormed = true ∧ encode i = w := by
  unfold decode at h
  split at h
  case h_1 ho | h_8 ho =>
    obtain ⟨hr, rfl⟩ := withReserved_eq_ok.mp h
    exact ⟨rfl, formatF1_eq_of_fields ho hr⟩
  case h_2 ho =>
    obtain rfl := Except.ok.inj h
    refine ⟨decide_eq_true (field27to8 w).isLt, ?_⟩
    rw [encode, BitVec.ofNat_toNat, BitVec.setWidth_eq, formatXB_eq_of_fields ho]
  case h_3 ho =>
    obtain ⟨hr, rfl⟩ := withReserved_eq_ok.mp h
    exact ⟨rfl, formatB_eq_of_fields ho hr⟩
  case h_13 => cases h
  all_goals
    obtain ⟨hr, rfl⟩ := withReserved_eq_ok.mp h
    exact ⟨rfl, formatN_eq_of_fields ‹_› hr⟩

/-- The decoder answers a command exactly for the word of that command. -/
theorem decode_eq_ok_iff {w : Word} {i : Instr} : decode w = .ok i ↔ i.WellFormed = true ∧ encode i = w :=
  ⟨encode_of_decode, fun ⟨hwf, hw⟩ => hw ▸ decode_encode hwf⟩

/-- Settles O2: the decoder answers `i` exactly for the word of `i`, so whatever it answers, no other command fits. -/
theorem eachWordIsOneCommandOrIllegal : Obligations.EachWordIsOneCommandOrIllegal := by
  unfold Obligations.EachWordIsOneCommandOrIllegal
  intro w
  cases hw : decode w with
  | ok i =>
    obtain ⟨hwf, henc⟩ := decode_eq_ok_iff.mp hw
    refine .inl ⟨i, rfl, hwf, henc, fun j hj hjw => ?_⟩
    exact Except.ok.inj ((decode_eq_ok_iff.mpr ⟨hj, hjw⟩).symm.trans hw)
  | error e =>
    refine .inr ⟨e, rfl, fun j hj hjw => ?_⟩
    exact nomatch (decode_eq_ok_iff.mpr ⟨hj, hjw⟩).symm.trans hw

/-! ### The formats as match and mask (30_encoding.md R72) -/

/-- A mask of all but the low `k` bits gives the bare OPC word `formatN opc`, as an equation of numbers. -/
theorem and_highMask_eq_formatN_iff (w : Word) (k : Nat) (opc : BitVec 4) :
    w &&& BitVec.allOnes 32 <<< k = formatN opc ↔ w.toNat / 2 ^ k * 2 ^ k = opc.toNat * 2 ^ 28 := by
  have hlt : w.toNat / 2 ^ k * 2 ^ k < 2 ^ 32 := (Nat.div_mul_le_self _ _).trans_lt w.isLt
  rw [← BitVec.toNat_inj, formatN_toNat, ← BitVec.shiftLeft_ushiftRight, BitVec.toNat_shiftLeft,
    BitVec.toNat_ushiftRight, Nat.shiftRight_eq_div_pow, Nat.shiftLeft_eq, Nat.mod_eq_of_lt hlt]

/-- The words of format F1: mask 0xFFFFFFFE. -/
theorem exists_formatF1_eq_iff {w : Word} {opc : BitVec 4} :
    (∃ v, formatF1 opc v = w) ↔ w &&& 0xFFFFFFFE#32 = formatN opc := by
  refine .trans ⟨?_, fun h => ?_⟩ (and_highMask_eq_formatN_iff w 1 opc).symm
  · rintro ⟨v, rfl⟩
    have := v.isLt
    rw [formatF1_toNat]
    omega
  · refine ⟨bitField w, formatF1_eq_of_fields ?_ ?_⟩
    · rw [opcOf_toNat]; omega
    · rw [reservedF1_toNat]; omega

/-- The words of format B: mask 0xFFFFFF00. -/
theorem exists_formatB_eq_iff {w : Word} {opc : BitVec 4} :
    (∃ b, formatB opc b = w) ↔ w &&& 0xFFFFFF00#32 = formatN opc := by
  refine .trans ⟨?_, fun h => ?_⟩ (and_highMask_eq_formatN_iff w 8 opc).symm
  · rintro ⟨b, rfl⟩
    have := b.isLt
    rw [formatB_toNat]
    omega
  · refine ⟨byteField w, formatB_eq_of_fields ?_ ?_⟩
    · rw [opcOf_toNat]; omega
    · rw [field27to8_toNat]; omega

/-- The words of format XB: mask 0xF0000000, no reserved bits. -/
theorem exists_formatXB_eq_iff {w : Word} {opc : BitVec 4} :
    (∃ idx b, formatXB opc idx b = w) ↔ w &&& 0xF0000000#32 = formatN opc := by
  refine .trans ⟨?_, fun h => ?_⟩ (and_highMask_eq_formatN_iff w 28 opc).symm
  · rintro ⟨idx, b, rfl⟩
    have := idx.isLt
    have := b.isLt
    rw [formatXB_toNat]
    omega
  · refine ⟨field27to8 w, byteField w, formatXB_eq_of_fields ?_⟩
    rw [opcOf_toNat]; omega

/-- A command whose operands are always in range has the one word `encode i`. -/
theorem decode_eq_ok_iff_eq_encode {w : Word} {i : Instr} (hwf : i.WellFormed = true) :
    decode w = .ok i ↔ w = encode i :=
  decode_eq_ok_iff.trans ((and_iff_right hwf).trans eq_comm)

/-- XORB's index is in range exactly when it is the number in a field of 20 bits. -/
theorem decode_eq_xorb_iff {w : Word} {idx : Nat} {b : Byte} :
    decode w = .ok (.xorb idx b) ↔ ∃ x : BitVec 20, x.toNat = idx ∧ formatXB 0x2#4 x b = w := by
  rw [decode_eq_ok_iff]
  constructor
  · rintro ⟨hwf, hw⟩
    exact ⟨BitVec.ofNat 20 idx, Nat.mod_eq_of_lt (of_decide_eq_true hwf), hw⟩
  · rintro ⟨x, rfl, rfl⟩
    exact ⟨decide_eq_true x.isLt, by rw [encode, BitVec.ofNat_toNat, BitVec.setWidth_eq]⟩

/-- CRYPT, TOBITS and WRBIT: some operand makes it the command, as some operand makes the format's word. -/
theorem exists_decode_eq_ok_iff {α : Type} {w : Word} {op : α → Instr} (hwf : ∀ a, (op a).WellFormed = true) :
    (∃ a, decode w = .ok (op a)) ↔ ∃ a, encode (op a) = w :=
  exists_congr fun a => (decode_eq_ok_iff_eq_encode (hwf a)).trans eq_comm

/-- XORB's operands range over the operands of format XB. -/
theorem exists_decode_eq_xorb_iff {w : Word} :
    (∃ idx b, decode w = .ok (.xorb idx b)) ↔ ∃ x b, formatXB 0x2#4 x b = w := by
  simp only [decode_eq_xorb_iff]
  constructor
  · rintro ⟨-, b, x, -, hw⟩
    exact ⟨x, b, hw⟩
  · rintro ⟨x, b, hw⟩
    exact ⟨x.toNat, b, x, rfl, hw⟩

/-- Settles O3: a command's words are the words its encoding can be, which are those of its format's mask, and the
format's field gives the operand back. -/
theorem legalWordsMatchTheirFormats : Obligations.LegalWordsMatchTheirFormats := by
  unfold Obligations.LegalWordsMatchTheirFormats
  intro w
  refine ⟨(exists_decode_eq_ok_iff fun _ => rfl).trans exists_formatF1_eq_iff,
    exists_decode_eq_xorb_iff.trans exists_formatXB_eq_iff,
    (exists_decode_eq_ok_iff fun _ => rfl).trans exists_formatB_eq_iff,
    decode_eq_ok_iff_eq_encode rfl, decode_eq_ok_iff_eq_encode rfl, decode_eq_ok_iff_eq_encode rfl,
    decode_eq_ok_iff_eq_encode rfl, (exists_decode_eq_ok_iff fun _ => rfl).trans exists_formatF1_eq_iff,
    decode_eq_ok_iff_eq_encode rfl, decode_eq_ok_iff_eq_encode rfl, decode_eq_ok_iff_eq_encode rfl,
    decode_eq_ok_iff_eq_encode rfl, fun d h => ?crypt, fun v h => ?wrbit, fun b h => ?tobits, fun idx b h => ?xorb⟩
  case crypt | wrbit =>
    rw [(decode_eq_ok_iff_eq_encode rfl).mp h, ← bitField_toNat, encode, bitField_formatF1]
  case tobits =>
    rw [(decode_eq_ok_iff_eq_encode rfl).mp h, ← byteField_toNat, encode, byteField_formatB]
  case xorb =>
    obtain ⟨x, rfl, rfl⟩ := decode_eq_xorb_iff.mp h
    rw [← field27to8_toNat, ← byteField_toNat, field27to8_formatXB, byteField_formatXB]
    exact ⟨rfl, rfl⟩

/-! ### The illegal words (30_encoding.md R78, R79) -/

/-- R78 in numbers, of a word with OPC `opc` and `low` below it: OPC is unassigned, or a reserved bit of its format
is 1. -/
def IllegalFields (opc low : Nat) : Prop :=
  opc = 0x0 ∨ opc = 0xD ∨ opc = 0xE ∨ opc = 0xF ∨
    ((opc = 0x1 ∨ opc = 0x8) ∧ low / 2 ≠ 0) ∨
    (opc = 0x3 ∧ low / 2 ^ 8 ≠ 0) ∨
    (opc ∈ [0x4, 0x5, 0x6, 0x7, 0x9, 0xA, 0xB, 0xC] ∧ low ≠ 0)

/-- Format F1's reserved bits within `w[27:0]`. -/
theorem reservedF1_toNat_eq_low_div (w : Word) : (reservedF1 w).toNat = w.toNat % 2 ^ 28 / 2 := by
  rw [reservedF1_toNat]
  omega

/-- Format B's reserved bits within `w[27:0]`. -/
theorem field27to8_toNat_eq_low_div (w : Word) : (field27to8 w).toNat = w.toNat % 2 ^ 28 / 2 ^ 8 := by
  rw [field27to8_toNat]
  omega

/-- The reserved-bit check passes exactly when the reserved bits are 0. -/
theorem exists_withReserved_eq_ok_iff {n : Nat} {reserved : BitVec n} {opc : Nat} {i : Instr} :
    (∃ j, withReserved reserved opc i = .ok j) ↔ reserved.toNat = 0 := by
  simp only [withReserved_eq_ok, exists_and_left, exists_eq, and_true]

/-- The decoder answers a command exactly for the words that are not illegal: one case per opcode, by format. -/
theorem exists_decode_eq_ok_iff_not_illegal {w : Word} :
    (∃ i, decode w = .ok i) ↔ ¬ IllegalFields (w.toNat / 2 ^ 28) (w.toNat % 2 ^ 28) := by
  rw [← opcOf_toNat]
  unfold decode
  split
  case h_1 ho | h_8 ho =>
    rw [exists_withReserved_eq_ok_iff, reservedF1_toNat_eq_low_div, ho]
    simp [IllegalFields]
  case h_2 ho =>
    rw [ho]
    simp [IllegalFields]
  case h_3 ho =>
    rw [exists_withReserved_eq_ok_iff, field27to8_toNat_eq_low_div, ho]
    simp [IllegalFields]
  case h_13 =>
    simp only [imp_false] at *
    have hlt := (opcOf w).isLt
    have ho : (opcOf w).toNat = 0x0 ∨ (opcOf w).toNat = 0xD ∨ (opcOf w).toNat = 0xE ∨ (opcOf w).toNat = 0xF := by
      omega
    rcases ho with ho | ho | ho | ho <;> simp [IllegalFields, ho]
  all_goals
    rename_i ho
    rw [exists_withReserved_eq_ok_iff, reservedN_toNat, ho]
    simp [IllegalFields]

end Sys2Proof

namespace Sys2Proof.Machine

/-- An illegal word only writes ERR. -/
theorem issue_of_illegal {w : Word} (h : IllegalFields (w.toNat / 2 ^ 28) (w.toNat % 2 ^ 28)) (s : State) :
    issue w s = .next { s with err := .illegal } := by
  unfold issue
  cases hw : decode w with
  | ok i => exact absurd h (exists_decode_eq_ok_iff_not_illegal.mp ⟨i, hw⟩)
  | error e => exact raise_eq _ _

/-- Settles O7: the step issues the word; an illegal one decodes to no command, and every other one to a command,
which is well-formed and runs. -/
theorem illegalWordWritesOnlyErr : Obligations.IllegalWordWritesOnlyErr := by
  unfold Obligations.IllegalWordWritesOnlyErr
  intro s w rest hm hin
  refine ⟨fun h => ?_, fun h => ?_⟩
  · rw [step_regWrite_cmd hm hin, issue_of_illegal h]
  · obtain ⟨i, hw⟩ := exists_decode_eq_ok_iff_not_illegal.mpr h
    exact ⟨i, (encode_of_decode hw).1, hw, by rw [step_regWrite_cmd hm hin, issue_of_decode hw]⟩

end Sys2Proof.Machine
end

section
/-! PROOFS. The family 41_cipher.md: XORB (R102) and the laws of `crypt` (R103). -/

namespace Sys2Proof

/-! ### The word of XORB (41_cipher.md R102, 30_encoding.md R72) -/

/-- Each bit of a format XB word is a bit of one of its three fields. -/
theorem getLsbD_formatXB (opc : BitVec 4) (idx : BitVec 20) (b : Byte) (i : Nat) :
    (formatXB opc idx b).getLsbD i =
      if i < 8 then b.getLsbD i else if i - 8 < 20 then idx.getLsbD (i - 8) else opc.getLsbD (i - 8 - 20) := by
  show (opc ++ idx ++ b : BitVec (4 + 20 + 8)).getLsbD i = _
  rw [BitVec.getLsbD_append, BitVec.getLsbD_append]

/-- The fields of format XB do not overlap, so its word is the OR of the fields shifted into place. -/
theorem formatXB_eq_or (opc : BitVec 4) (idx : BitVec 20) (b : Byte) :
    formatXB opc idx b = opc.zeroExtend 32 <<< 28 ||| idx.zeroExtend 32 <<< 8 ||| b.zeroExtend 32 := by
  apply BitVec.eq_of_getLsbD_eq
  intro i hi
  rw [getLsbD_formatXB]
  by_cases hb : i < 8
  · have : i < 28 := by omega
    simp [*]
  · have hb0 : b.getLsbD i = false := b.getLsbD_of_ge i (by omega)
    by_cases hx : i < 28
    · have : i - 8 < 20 := by omega
      simp [*]
    · have hx0 : idx.getLsbD (i - 8) = false := idx.getLsbD_of_ge (i - 8) (by omega)
      have : ¬ i - 8 < 20 := by omega
      simp [*, Nat.sub_sub]

/-- An index of fewer than 2^20 loses no bit in its field (R81). -/
theorem encode_xorb_eq_or {idx : Nat} (h : idx < 2 ^ 20) (b : Byte) :
    encode (.xorb idx b) = 0x20000000#32 ||| (BitVec.ofNat 32 idx <<< 8) ||| b.zeroExtend 32 := by
  have hidx : (BitVec.ofNat 20 idx).zeroExtend 32 = BitVec.ofNat 32 idx :=
    BitVec.setWidth_ofNat_of_le_of_lt (by decide) h
  rw [encode, formatXB_eq_or, hidx]
  rfl

end Sys2Proof

namespace Sys2Proof.Machine

/-! ### XORB (41_cipher.md R102) -/

/-- XORB when its key byte is there. -/
theorem exec_xorb_of_keyByte_ok {s : State} {idx : Nat} {k : Byte} (h : s.keyByte idx = .ok k) (b : Byte) :
    exec (.xorb idx b) s = .next { s with res := (b ^^^ k).zeroExtend 32, err := .none } := by
  rw [exec, execXorb, h, andThen_ok, done_eq, zextByte]

/-- XORB when its key byte is not there. -/
theorem exec_xorb_of_keyByte_error {s : State} {idx : Nat} {f : Fault} (h : s.keyByte idx = .error f) (b : Byte) :
    exec (.xorb idx b) s = .fault f := by
  rw [exec, execXorb, h, andThen_error]

/-- The index of a key byte is an element of KEY. -/
theorem keyIndex_lt_keyCap {s : State} (hI : s.Inv) (hk : s.klen ≠ 0) (i : Nat) : i % s.klen < s.cfg.keyCap := by
  obtain ⟨-, ⟨-, -, hle, -⟩, -, -⟩ := hI
  exact (Nat.mod_lt i (Nat.pos_of_ne_zero hk)).trans_le hle

/-- Settles O22: XORB ends as its key byte does, which is 0x00 for an empty key and otherwise a read of KEY below its
capacity. -/
theorem xorbCiphersOneByte : Obligations.XorbCiphersOneByte := by
  unfold Obligations.XorbCiphersOneByte
  intro s idx b hI
  refine ⟨fun hidx => encode_xorb_eq_or hidx b, fun hk => ?_, fun k hk hread => ?_, fun hk hread => ?_⟩
  · rw [exec_xorb_of_keyByte_ok (keyByte_of_empty hk idx), BitVec.xor_zero]
  · apply exec_xorb_of_keyByte_ok
    rw [keyByte_of_key hk]
    exact fetch_of_read (keyIndex_lt_keyCap hI hk idx) hread
  · apply exec_xorb_of_keyByte_error
    rw [keyByte_of_key hk]
    exact fetch_unwritten (keyIndex_lt_keyCap hI hk idx) hread

/-! ### The laws of `crypt` (41_cipher.md R103) -/

/-- Byte `i` of `crypt m k` is `m[i]` XOR its key byte. An empty key has no byte there, and the 0x00 in its place
changes nothing. -/
theorem getElem?_crypt (m k : List Byte) (i : Nat) :
    (crypt m k)[i]? = m[i]?.map fun x => x ^^^ k[i % k.length]?.getD 0x00#8 := by
  rw [crypt, List.getElem?_mapIdx]
  cases k with
  | nil => simp
  | cons b k => simp

/-- `crypt` is an involution: byte by byte, `(x ^^^ y) ^^^ y = x`. -/
theorem crypt_crypt (m k : List Byte) : crypt (crypt m k) k = m := by
  refine List.ext_getElem? fun i => ?_
  rw [getElem?_crypt, getElem?_crypt, Option.map_map]
  simp only [Function.comp_def, xor_cancel_right, Option.map_id']

theorem crypt_nil_key (m : List Byte) : crypt m [] = m := by
  refine List.ext_getElem? fun i => ?_
  simp [getElem?_crypt]

/-- Settles O33: the length is that of `mapIdx`, and the other laws are read off byte `i`. -/
theorem cryptLaws : Obligations.CryptLaws := by
  unfold Obligations.CryptLaws
  intro m k
  refine ⟨crypt_length m k, crypt_crypt m k, crypt_nil_key m, fun m' k' i _ _ hm hlen hk => ?_⟩
  rw [getElem?_crypt, getElem?_crypt, hm, hk, hlen]

end Sys2Proof.Machine
end

section
/-! PROOFS. The family 42_bitcodec.md: the codec as the binary value of a bit sequence (R111, R114), TOBITS (R112) and
FROMBITS (R113). -/

namespace Sys2Proof

/-- The word of TOBITS: the two fields of format B do not overlap. -/
theorem encode_tobits_eq_or (b : Byte) : encode (.tobits b) = 0x30000000#32 ||| b.zeroExtend 32 := by
  rw [encode, formatB_eq_formatXB, formatXB_eq_or]
  congr 1

end Sys2Proof

namespace Sys2Proof.Machine

/-! ### The binary value of a bit sequence (42_bitcodec.md R111) -/

@[simp] theorem accumulateBits_nil : accumulateBits [] = 0 := rfl

/-- The accumulator an accumulation starts from ends up above the bits it takes in. -/
theorem foldl_eq_accumulateBits (s : List Bit) (acc : Nat) :
    s.foldl (fun acc v => acc * 2 + v.toNat) acc = 2 ^ s.length * acc + accumulateBits s := by
  induction s generalizing acc with
  | nil => simp
  | cons v s ih =>
    rw [accumulateBits, List.foldl_cons, List.foldl_cons, ih, ih, List.length_cons, Nat.pow_succ]
    ring

/-- The first bit is the most significant. -/
theorem accumulateBits_cons (v : Bit) (s : List Bit) :
    accumulateBits (v :: s) = 2 ^ s.length * v.toNat + accumulateBits s := by
  rw [accumulateBits, List.foldl_cons, foldl_eq_accumulateBits, Nat.zero_mul, Nat.zero_add]

theorem accumulateBits_lt (s : List Bit) : accumulateBits s < 2 ^ s.length := by
  induction s with
  | nil => decide
  | cons v s ih =>
    have hv : 2 ^ s.length * v.toNat ≤ 2 ^ s.length * 1 := Nat.mul_le_mul_left _ (Nat.le_of_lt_succ v.isLt)
    rw [accumulateBits_cons, List.length_cons, Nat.pow_succ]
    omega

/-- Element `k` of a sequence is bit `length - 1 - k` of its value. -/
theorem testBit_accumulateBits {s : List Bit} {k : Nat} (hk : k < s.length) :
    (accumulateBits s).testBit (s.length - 1 - k) = s[k].getLsbD 0 := by
  induction s generalizing k with
  | nil => exact absurd hk (Nat.not_lt_zero k)
  | cons v s ih =>
    rw [accumulateBits_cons, Nat.testBit_two_pow_mul_add _ (accumulateBits_lt s), List.length_cons,
      Nat.add_sub_cancel]
    cases k with
    | zero => rw [if_neg (by omega), Nat.sub_zero, Nat.sub_self, BitVec.testBit_toNat, List.getElem_cons_zero]
    | succ k =>
      have hk : k < s.length := Nat.lt_of_succ_lt_succ hk
      rw [if_pos (by omega), List.getElem_cons_succ, ← ih hk, Nat.sub_sub, Nat.add_comm 1 k]

/-- The value of eight bits is a byte, so `fromBits` loses nothing. -/
theorem fromBits_toNat {s : List Bit} (h : s.length = 8) : (fromBits s).toNat = accumulateBits s := by
  have hlt := accumulateBits_lt s
  rw [h] at hlt
  rw [fromBits, BitVec.toNat_ofNat, Nat.mod_eq_of_lt hlt]

/-! ### The round trips (42_bitcodec.md R114) -/

/-- One bit of a word is its value at that index. -/
theorem extractLsb'_one_eq_ofBool {w : Nat} (x : BitVec w) (k : Nat) :
    x.extractLsb' k 1 = BitVec.ofBool (x.getLsbD k) := by
  refine BitVec.eq_of_getLsbD_eq fun i hi => ?_
  obtain rfl : i = 0 := by omega
  simp

theorem toBits_fromBits {s : List Bit} (h : s.length = 8) : toBits (fromBits s) = s := by
  refine List.ext_getElem? fun k => ?_
  by_cases hk : k < 8
  · have hks : k < s.length := h ▸ hk
    have hbit : (fromBits s).getLsbD (7 - k) = s[k].getLsbD 0 := by
      rw [← BitVec.testBit_toNat, fromBits_toNat h, ← testBit_accumulateBits hks, h]
    rw [toBits_getElem? _ hk, List.getElem?_eq_getElem hks, extractLsb'_one_eq_ofBool, hbit,
      ← extractLsb'_one_eq_ofBool, BitVec.extractLsb'_eq_self]
  · rw [List.getElem?_eq_none (by simpa using hk), List.getElem?_eq_none (by omega)]

/-- A byte is determined by its eight bits. -/
theorem toBits_injective : Function.Injective toBits := by
  intro a b hab
  refine BitVec.eq_of_getLsbD_eq fun i hi => ?_
  have hbit := congrArg (·[7 - i]?) hab
  simp only [toBits_getElem? _ (show 7 - i < 8 by omega), Option.some.injEq, extractLsb'_one_eq_ofBool,
    BitVec.ofBool_eq_iff_eq] at hbit
  rwa [Nat.sub_sub_self (Nat.le_of_lt_succ hi)] at hbit

/-- Both bytes have the bits of `b`. -/
theorem fromBits_toBits (b : Byte) : fromBits (toBits b) = b :=
  toBits_injective (toBits_fromBits (toBits_length b))

/-- Settles O34: `fromBits` is the value of the sequence, whose bits are the elements again; the sum is that value, one
bit after the other. -/
theorem bitCodecRoundTrips : Obligations.BitCodecRoundTrips := by
  unfold Obligations.BitCodecRoundTrips
  refine ⟨fromBits_toBits, fun s => toBits_fromBits, fun s0 s1 s2 s3 s4 s5 s6 s7 => ?_⟩
  rw [fromBits_toNat rfl]
  simp only [accumulateBits_cons, accumulateBits_nil, List.length_cons, List.length_nil]
  ring

/-! ### FROMBITS (42_bitcodec.md R113) -/

theorem exec_frombits_bitcount {s : State} (h : s.bvlen ≠ 8) :
    exec .frombits s = .next { s with err := .bitcount } := by
  rw [exec, execFrombits, if_pos h, raise_eq]

theorem exec_frombits_overflow {s : State} (h : s.bvlen = 8) (hfull : s.slen = s.cfg.strCap) :
    exec .frombits s = .next { s with err := .overflow } := by
  rw [exec, execFrombits, if_neg (not_not.mpr h), if_pos hfull, raise_eq]

/-- With eight bits and room in STR, the assembled byte is BV itself. -/
theorem exec_frombits_append {s : State} (h : s.bvlen = 8) (hroom : s.slen < s.cfg.strCap) :
    exec .frombits s = .next { s with str := s.str.write s.slen s.bv, slen := s.slen + 1, res := zextByte s.bv,
                                      bv := 0x00#8, bvlen := 0, err := .none } := by
  rw [exec, execFrombits, if_neg (not_not.mpr h), if_neg hroom.ne]
  simp only [fromBits_toBits, writeStr_of_lt hroom, andThen_ok, done_eq]

/-- Settles O24: the two checks in order, then the append, whose one write is to element SLEN of STR. -/
theorem frombitsAppendsByte : Obligations.FrombitsAppendsByte := by
  unfold Obligations.FrombitsAppendsByte
  refine ⟨rfl, fun s hI => ⟨exec_frombits_bitcount, exec_frombits_overflow, fun h hroom => ?_⟩⟩
  obtain ⟨-, ⟨-, -, -, -, hslen, -⟩, -, -⟩ := hI
  exact ⟨_, exec_frombits_append h (Nat.lt_of_le_of_ne hslen hroom), Memory.read_write_same _ _ _,
    fun k hk => Memory.read_write_other hk _ _, rfl⟩

/-! ### TOBITS (42_bitcodec.md R112) -/

theorem exec_tobits (b : Byte) (s : State) :
    exec (.tobits b) s = .next { s with bv := b, bvlen := 8, err := .none } := by
  rw [exec, execTobits, done_eq]

/-- A full bit sequence is the bits of BV. -/
theorem bitSeq_of_bvlen_eq_eight {s : State} (h : s.bvlen = 8) : s.bitSeq = toBits s.bv := by
  rw [State.bitSeq, h]
  rfl

/-- Element `j` of the bits of a byte is its bit `7 - j`. -/
theorem toBits_eq_map_range (b : Byte) :
    toBits b = (List.range 8).map fun j => BitVec.ofBool (b.getLsbD (7 - j)) := by
  simp only [← extractLsb'_one_eq_ofBool]
  rfl

/-- Settles O23: TOBITS completes from every state, and the sequence it leaves is the bits of its operand. -/
theorem tobitsLoadsBitSequence : Obligations.TobitsLoadsBitSequence := by
  unfold Obligations.TobitsLoadsBitSequence
  intro s b
  refine ⟨encode_tobits_eq_or b, _, exec_tobits b s, rfl, ?_⟩
  rw [bitSeq_of_bvlen_eq_eight rfl, toBits_eq_map_range]

end Sys2Proof.Machine
end

section
/-! PROOFS. The family 43_framer.md: the marker test (R121), FRAME (R122) and DETECT (R123). -/

namespace Sys2Proof.Machine

/-! ### The marker test (43_framer.md R121) -/

/-- The test on the length is implied: the drop of a shorter stream is shorter than the marker. -/
theorem eomAt_iff_suffix (s : List Byte) : eomAt s = true ↔ eom <:+ s := by
  have hshort : s.drop (s.length - 3) = eom → 3 ≤ s.length := by
    intro h
    have hlen := congrArg List.length h
    rw [List.length_drop, show eom.length = 3 from rfl] at hlen
    omega
  rw [eomAt, Bool.and_eq_true, decide_eq_true_iff, beq_iff_eq, and_iff_right_of_imp hshort,
    List.suffix_iff_eq_drop, eq_comm]
  rfl

/-- The comparison of the source, both sides reversed. -/
theorem eomAt_iff_reverse_take (s : List Byte) : eomAt s = true ↔ s.reverse.take 3 = eom.reverse := by
  rw [eomAt_iff_suffix, ← List.reverse_prefix, List.prefix_iff_eq_take, eq_comm]
  rfl

/-- Settles O35: `eomAt` says that the stream ends in the marker, so the reversed stream starts with
the reversed marker. -/
theorem eomAtIsTrailingEquality : Obligations.EomAtIsTrailingEquality := by
  unfold Obligations.EomAtIsTrailingEquality
  intro s
  refine ⟨?_, eomAt_iff_reverse_take s⟩
  rw [eomAt_iff_suffix]
  exact exists_congr fun x => eq_comm

/-! ### FRAME (43_framer.md R122) -/

theorem exec_frame_overflow {s : State} (h : s.cfg.strCap < s.slen + 3) :
    exec .frame s = .next { s with err := .overflow } := by
  rw [exec, execFrame, if_pos h, raise_eq]

theorem exec_frame_append {s : State} (h : s.slen + 3 ≤ s.cfg.strCap) :
    exec .frame s = .next { s with str := s.str.writeList s.slen eom, slen := s.slen + 3, err := .none } := by
  rw [exec, execFrame, if_neg (Nat.not_lt.mpr h), appendEom_ok h, finish_ok]

/-- The marker's bytes stand where it was written. -/
theorem read_writeList_eom (m : Memory 8) (i : Nat) {j : Nat} (hj : j < 3) :
    (m.writeList i eom).read (i + j) = eom[j]? := by
  rw [Memory.read_writeList, if_pos ⟨Nat.le_add_right i j, Nat.add_lt_add_left hj i⟩, Nat.add_sub_cancel_left]

/-- Writing the marker leaves every element but its three. -/
theorem read_writeList_eom_other (m : Memory 8) {i k : Nat} (hk : k < i ∨ i + 3 ≤ k) :
    (m.writeList i eom).read k = m.read k := by
  rw [Memory.read_writeList, if_neg]
  rw [show eom.length = 3 from rfl]
  omega

/-- The marker written behind a stream that is held makes it the framed stream. -/
theorem holds_frame {m : Memory 8} {x : List Byte} (h : m.Holds x) : (m.writeList x.length eom).Holds (frame x) := by
  intro k hk
  simp only [frame] at hk ⊢
  by_cases hx : k < x.length
  · rw [read_writeList_eom_other m (.inl hx), h k hx, List.getElem_append_left hx]
  · obtain ⟨j, rfl⟩ := Nat.exists_eq_add_of_le (Nat.le_of_not_lt hx)
    have hj : j < eom.length := by rw [List.length_append] at hk; omega
    rw [read_writeList_eom m _ hj, List.getElem_append_right (by omega), List.getElem?_eq_getElem hj]
    simp only [Nat.add_sub_cancel_left]

/-- Settles O25: FRAME writes the marker behind the stream where it fits, which the parameters grant up to MSG_CAP
(R10). -/
theorem frameAppendsMarker : Obligations.FrameAppendsMarker := by
  unfold Obligations.FrameAppendsMarker
  refine ⟨rfl, fun s hI => ⟨exec_frame_overflow, fun hroom => ?_, fun hmsg => ?_⟩⟩
  · refine ⟨_, exec_frame_append hroom, read_writeList_eom s.str s.slen (j := 0) (by decide),
      read_writeList_eom s.str s.slen (j := 1) (by decide), read_writeList_eom s.str s.slen (j := 2) (by decide),
      fun k hk => read_writeList_eom_other s.str hk, rfl, fun x hx => ?_⟩
    obtain ⟨hlen, hheld⟩ := hx
    refine ⟨?_, ?_⟩
    · rw [frame, List.length_append, hlen]; rfl
    · rw [← hlen]; exact holds_frame hheld
  · obtain ⟨⟨-, -, hcap, -⟩, -⟩ := hI
    omega

/-! ### DETECT (43_framer.md R123) -/

theorem readStr_of_read {s : State} {i : Nat} {v : Byte} (hi : i < s.cfg.strCap) (h : s.str.read i = some v) :
    s.readStr i = .ok v := fetch_of_read hi h

theorem readStr_unwritten {s : State} {i : Nat} (hi : i < s.cfg.strCap) (h : s.str.read i = none) :
    s.readStr i = .error (.unwritten .str i) := fetch_unwritten hi h

theorem exec_detect_of_tailIsEom_ok {s : State} {hit : Bool} (h : tailIsEom s = .ok hit) :
    exec .detect s = .next (if hit then { s with slen := s.slen - 3, det := true, err := .none }
      else { s with det := false, err := .none }) := by
  rw [exec, execDetect, h, andThen_ok]
  cases hit <;> rfl

theorem exec_detect_of_tailIsEom_error {s : State} {f : Fault} (h : tailIsEom s = .error f) :
    exec .detect s = .fault f := by
  rw [exec, execDetect, h, andThen_error]

/-- The marker test on three written tail bytes compares them with the marker, in order. -/
theorem tailIsEom_of_reads {s : State} (hcap : s.slen ≤ s.cfg.strCap) {t0 t1 t2 : Byte} (h3 : 3 ≤ s.slen)
    (h0 : s.str.read (s.slen - 3) = some t0) (h1 : s.str.read (s.slen - 2) = some t1)
    (h2 : s.str.read (s.slen - 1) = some t2) : tailIsEom s = .ok ([t0, t1, t2] == eom) := by
  rw [tailIsEom, if_pos h3, readStr_of_read (by omega) h0, readStr_of_read (by omega) h1,
    readStr_of_read (by omega) h2]
  rfl

/-- Reading STR at the head of a list of reads faults at the first unwritten one when the rest does. -/
theorem readStr_bind_fault {s : State} {i : Nat} {reads : List (MemId × Nat)} {p : MemId} {k : Nat} {α : Type}
    {rest : Byte → Except Fault α} (hi : i < s.cfg.strCap) (h : s.firstUnwritten ((.str, i) :: reads) = some (p, k))
    (hrest : ∀ v, s.firstUnwritten reads = some (p, k) → rest v = .error (.unwritten p k)) :
    (s.readStr i >>= rest) = .error (.unwritten p k) := by
  rw [firstUnwritten_cons] at h
  cases hr : s.str.read i with
  | none =>
    rw [if_pos (by rw [State.element, hr]; rfl), Option.some.injEq, Prod.mk.injEq] at h
    obtain ⟨rfl, rfl⟩ := h
    rw [readStr_unwritten hi hr, Except.error_bind']
  | some v =>
    rw [if_neg (by simp [State.element, hr])] at h
    rw [readStr_of_read hi hr, Except.ok_bind', hrest v h]

/-- The marker test faults at the first unwritten tail byte, whatever the others hold. -/
theorem tailIsEom_of_firstUnwritten {s : State} (hcap : s.slen ≤ s.cfg.strCap) {p : MemId} {k : Nat} (h3 : 3 ≤ s.slen)
    (h : s.firstUnwritten [(.str, s.slen - 3), (.str, s.slen - 2), (.str, s.slen - 1)] = some (p, k)) :
    tailIsEom s = .error (.unwritten p k) := by
  rw [tailIsEom, if_pos h3]
  refine readStr_bind_fault (by omega) h fun _ h => ?_
  refine readStr_bind_fault (by omega) h fun _ h => ?_
  refine readStr_bind_fault (by omega) h fun _ h => ?_
  rw [firstUnwritten_nil] at h
  exact nomatch h

/-- Settles O26: DETECT ends as the marker test on the tail of STR does. -/
theorem detectStripsMarker : Obligations.DetectStripsMarker := by
  unfold Obligations.DetectStripsMarker
  refine ⟨rfl, fun s hI => ?_⟩
  obtain ⟨-, ⟨-, -, -, -, hcap, -⟩, -, -⟩ := hI
  refine ⟨fun h => exec_detect_of_tailIsEom_ok (tailIsEom_short h), fun t0 t1 t2 h3 h0 h1 h2 => ?_,
    fun p k h3 h => exec_detect_of_tailIsEom_error (tailIsEom_of_firstUnwritten hcap h3 h)⟩
  rw [exec_detect_of_tailIsEom_ok (tailIsEom_of_reads hcap h3 h0 h1 h2)]
  simp only [eom, beq_iff_eq, List.cons.injEq, and_true]

end Sys2Proof.Machine
end

section
/-! PROOFS. The family 44_pixelchannel.md: the laws of `writeBit`, `readBit` and `map` (R133, R134), CAPCHK (R140),
WRBIT (R141), RDBIT (R142) and MAP (R143). -/

namespace Sys2Proof.Machine

/-! ### The carrier bit of a pixel (44_pixelchannel.md R131, R132, R134) -/

/-- A bit vector of width 1 is its bit 0. -/
theorem ofBool_getLsbD_zero (v : Bit) : BitVec.ofBool (v.getLsbD 0) = v := by
  rw [← extractLsb'_one_eq_ofBool, BitVec.extractLsb'_eq_self]

theorem readBit_writeBit (c : Word) (v : Bit) : readBit (writeBit c v) = v := by
  rw [readBit_ofBool, writeBit_getLsbD c v 0 (by decide), if_pos rfl, ofBool_getLsbD_zero]

/-- The last carrier bit written is the one that stays. -/
theorem writeBit_writeBit (c : Word) (u v : Bit) : writeBit (writeBit c u) v = writeBit c v := by
  apply BitVec.eq_of_getLsbD_eq
  intro i hi
  rw [writeBit_getLsbD _ v i hi, writeBit_getLsbD c v i hi]
  by_cases h : i = 0
  · rw [if_pos h, if_pos h]
  · rw [if_neg h, if_neg h, writeBit_getLsbD c u i hi, if_neg h]

/-- Writing a carrier bit changes its pixel by the difference between the old and the new bit. -/
theorem writeBit_xor_self (c : Word) (v : Bit) : writeBit c v ^^^ c = (v ^^^ readBit c).zeroExtend 32 := by
  apply BitVec.eq_of_getLsbD_eq
  intro i hi
  rw [BitVec.getLsbD_xor, writeBit_getLsbD c v i hi, BitVec.getLsbD_setWidth, BitVec.getLsbD_xor]
  by_cases h : i = 0
  · subst h
    simp [readBit]
  · have hv : v.getLsbD i = false := v.getLsbD_of_ge i (by omega)
    have hc : (readBit c).getLsbD i = false := (readBit c).getLsbD_of_ge i (by omega)
    simp [h, hv, hc]

/-- The isolation of R134: no bit but bit 0 changes. -/
theorem writeBit_xor_self_eq_zero_or_one (c : Word) (v : Bit) :
    writeBit c v ^^^ c = 0#32 ∨ writeBit c v ^^^ c = 1#32 := by
  rw [writeBit_xor_self]
  rcases bit_cases (v ^^^ readBit c) with h | h <;> rw [h]
  · exact .inl rfl
  · exact .inr rfl

theorem writeBit_readBit (c : Word) : writeBit c (readBit c) = c := by
  rw [← BitVec.xor_eq_zero_iff, writeBit_xor_self, BitVec.xor_self]
  rfl

theorem readBit_zeroExtend (c : Word) : (readBit c).zeroExtend 32 = c &&& 1#32 := by
  apply BitVec.eq_of_toNat_eq
  rw [BitVec.toNat_setWidth, readBit_toNat, BitVec.toNat_and, show (1#32).toNat = 1 from rfl, Nat.and_one_is_mod]
  omega

/-! ### The scan order (44_pixelchannel.md R133, R134; 20_memory.md R51) -/

/-- The PIX word of the pixel at a position is that position. -/
theorem pixelWord_mapPos (pos w : Nat) : pixelWord (mapPos pos w) w = pos := Nat.div_add_mod' pos w

theorem mapPos_x_lt {w h pos : Nat} (hpos : pos < w * h) : (mapPos pos w).x < w :=
  Nat.mod_lt pos (Nat.pos_of_lt_mul_right hpos)

theorem mapPos_y_lt {w h pos : Nat} (hpos : pos < w * h) : (mapPos pos w).y < h := Nat.div_lt_of_lt_mul hpos

/-- The position of a pixel is its PIX word. -/
theorem mapPos_pixelWord {w x : Nat} (hx : x < w) (y b : Nat) :
    mapPos (pixelWord { x := x, y := y, bit := b } w) w = { x := x, y := y, bit := carrierBit } := by
  have hdiv : (y * w + x) / w = y := by
    rw [Nat.add_comm, Nat.add_mul_div_right x y (Nat.zero_lt_of_lt hx), Nat.div_eq_of_lt hx, Nat.zero_add]
  simp only [mapPos, pixelWord, Nat.mul_add_mod_of_lt hx, hdiv]

theorem pixelWord_lt {w h x y : Nat} (hx : x < w) (hy : y < h) (b : Nat) :
    pixelWord { x := x, y := y, bit := b } w < w * h := by
  have hrow : pixelWord { x := x, y := y, bit := b } w / w = y := congrArg PixelBit.y (mapPos_pixelWord hx y b)
  rw [Nat.mul_comm, ← Nat.div_lt_iff_lt_mul (Nat.zero_lt_of_lt hx), hrow]
  exact hy

/-- Settles O37: the laws of the carrier bit, and `map` and `pixelWord` undo each other between the positions below
`w * h` and the pixels. -/
theorem pixelFunctionLaws : Obligations.PixelFunctionLaws := by
  unfold Obligations.PixelFunctionLaws
  refine ⟨fun c v => ⟨readBit_writeBit c v, writeBit_xor_self_eq_zero_or_one c v, writeBit_readBit c,
    writeBit_writeBit c v v, readBit_zeroExtend c⟩, fun w h => ⟨fun p hp => ⟨mapPos_x_lt hp, mapPos_y_lt hp⟩,
    fun p q _ _ hx hy => ?_, fun x y hx hy => ?_⟩⟩
  · rw [← pixelWord_mapPos p w, ← pixelWord_mapPos q w, pixelWord, pixelWord, hx, hy]
  · have hmap := mapPos_pixelWord hx y carrierBit
    exact ⟨_, pixelWord_lt hx hy carrierBit, congrArg PixelBit.x hmap, congrArg PixelBit.y hmap⟩

/-- Settles O38: a position below `w * h` leaves no room for `w = 0`; the order is the definition of `map`, and the
PIX word of its pixel is the position again. -/
theorem scanOrderIsRowMajor : Obligations.ScanOrderIsRowMajor := by
  unfold Obligations.ScanOrderIsRowMajor
  exact fun w h pos hpos => ⟨Nat.pos_of_lt_mul_right hpos, rfl, pixelWord_mapPos pos w⟩

/-! ### CAPCHK (44_pixelchannel.md R140) -/

theorem wordOf_toNat {n : Nat} (h : n < 2 ^ 32) : (wordOf n).toNat = n := by
  rw [wordOf_fits h, BitVec.toNat_ofNat, Nat.mod_eq_of_lt h]

/-- The carrier bits a stream needs fit a word (R11). -/
theorem slen_mul_eight_lt {s : State} (hI : s.Inv) : s.slen * 8 < 2 ^ 32 := by
  obtain ⟨⟨-, -, -, -, -, hcap⟩, ⟨-, -, -, -, hslen, -⟩, -⟩ := hI
  omega

/-- The carrier bits of the grid fit a word (R11). -/
theorem gridBits_lt {s : State} (hI : s.Inv) : s.gridBits < 2 ^ 32 := by
  have hle := gridBits_le_pixCap hI
  obtain ⟨⟨-, -, -, -, hpix, -⟩, -⟩ := hI
  omega

/-- CAPCHK completes from every state. -/
theorem exec_capchk (s : State) : exec .capchk s =
    .next { s with res := wordOf (s.slen * 8), res2 := wordOf s.gridBits,
                   err := if s.slen * 8 ≤ s.width * s.height then .none else .capacity } := by
  simp only [exec, execCapchk, capOk, decide_eq_true_eq]
  by_cases h : s.slen * 8 ≤ s.width * s.height
  · rw [if_pos h, if_pos h]
    rfl
  · rw [if_neg h, if_neg h]
    rfl

/-- Settles O27: both numbers fit their words under the invariant. -/
theorem capchkComparesNeedWithCapacity : Obligations.CapchkComparesNeedWithCapacity := by
  unfold Obligations.CapchkComparesNeedWithCapacity
  exact ⟨rfl, fun s hI =>
    ⟨_, exec_capchk s, wordOf_toNat (slen_mul_eight_lt hI), wordOf_toNat (gridBits_lt hI), rfl⟩⟩

/-! ### The pixel of map(POS) (44_pixelchannel.md R141, R142) -/

/-- Below WIDTH * HEIGHT the pixel of map(POS) is an element of PIX. -/
theorem carrierWord_lt_pixCap {s : State} (hI : s.Inv) (hpos : s.pos < s.gridBits) : s.carrierWord < s.cfg.pixCap := by
  rw [carrierWord_eq_pos]
  exact hpos.trans_le (gridBits_le_pixCap hI)

theorem readPix_carrierWord_of_read {s : State} (hI : s.Inv) (hpos : s.pos < s.gridBits) {c : Word}
    (h : s.pix.read s.carrierWord = some c) : s.readPix s.carrierWord = .ok c :=
  fetch_of_read (carrierWord_lt_pixCap hI hpos) h

theorem readPix_carrierWord_unwritten {s : State} (hI : s.Inv) (hpos : s.pos < s.gridBits)
    (h : s.pix.read s.carrierWord = none) : s.readPix s.carrierWord = .error (.unwritten .pix s.pos) := by
  rw [← carrierWord_eq_pos s]
  exact fetch_unwritten (carrierWord_lt_pixCap hI hpos) h

/-! ### WRBIT (44_pixelchannel.md R141) -/

theorem exec_wrbit_capacity {s : State} (h : s.gridBits ≤ s.pos) (v : Bit) :
    exec (.wrbit v) s = .next { s with err := .capacity } := by
  rw [exec, execWrbit, if_pos h, raise_eq]

/-- WRBIT on a written pixel writes its word back with the carrier bit replaced. -/
theorem exec_wrbit_write {s : State} (hI : s.Inv) (hpos : s.pos < s.gridBits) {c : Word}
    (h : s.pix.read s.carrierWord = some c) (v : Bit) :
    exec (.wrbit v) s = .next { s with pix := s.pix.write s.carrierWord (writeBit c v), res := writeBit c v, res2 := c,
                                       pos := s.pos + 1, err := .none } := by
  rw [exec, execWrbit, if_neg (Nat.not_le.mpr hpos), readPix_carrierWord_of_read hI hpos h, andThen_ok,
    writePix_of_lt (carrierWord_lt_pixCap hI hpos), andThen_ok, done_eq]

theorem exec_wrbit_unwritten {s : State} (hI : s.Inv) (hpos : s.pos < s.gridBits)
    (h : s.pix.read s.carrierWord = none) (v : Bit) : exec (.wrbit v) s = .fault (.unwritten .pix s.pos) := by
  rw [exec, execWrbit, if_neg (Nat.not_le.mpr hpos), readPix_carrierWord_unwritten hI hpos h, andThen_error]

/-- Settles O28: WRBIT writes one element of PIX, word POS, and the value it writes is `writeBit` of the old one. -/
theorem wrbitWritesCarrierBit : Obligations.WrbitWritesCarrierBit := by
  unfold Obligations.WrbitWritesCarrierBit
  refine ⟨rfl, rfl, fun s v hI => ⟨fun h => exec_wrbit_capacity h v, fun c hpos hread => ?_,
    fun hpos hread => exec_wrbit_unwritten hI hpos hread v, fun _ => carrierWord_eq_pos s⟩⟩
  exact ⟨_, exec_wrbit_write hI hpos hread v, Memory.read_write_same _ _ _,
    fun k hk => Memory.read_write_other hk _ _, rfl⟩

/-! ### RDBIT (44_pixelchannel.md R142) -/

theorem exec_rdbit_bitcount {s : State} (h : s.bvlen = 8) : exec .rdbit s = .next { s with err := .bitcount } := by
  rw [exec, execRdbit, if_pos h, raise_eq]

theorem exec_rdbit_capacity {s : State} (hlen : s.bvlen ≠ 8) (h : s.gridBits ≤ s.pos) :
    exec .rdbit s = .next { s with err := .capacity } := by
  rw [exec, execRdbit, if_neg hlen, if_pos h, raise_eq]

/-- RDBIT on a written pixel shifts its carrier bit into BV. -/
theorem exec_rdbit_append {s : State} (hI : s.Inv) (hlen : s.bvlen ≠ 8) (hpos : s.pos < s.gridBits) {c : Word}
    (h : s.pix.read s.carrierWord = some c) :
    exec .rdbit s = .next { s with bv := (s.bv <<< 1) ||| (readBit c).zeroExtend 8, bvlen := s.bvlen + 1,
                                   res := zextBit (readBit c), pos := s.pos + 1, err := .none } := by
  rw [exec, execRdbit, if_neg hlen, if_neg (Nat.not_le.mpr hpos), readPix_carrierWord_of_read hI hpos h, andThen_ok,
    done_eq]

theorem exec_rdbit_unwritten {s : State} (hI : s.Inv) (hlen : s.bvlen ≠ 8) (hpos : s.pos < s.gridBits)
    (h : s.pix.read s.carrierWord = none) : exec .rdbit s = .fault (.unwritten .pix s.pos) := by
  rw [exec, execRdbit, if_neg hlen, if_neg (Nat.not_le.mpr hpos), readPix_carrierWord_unwritten hI hpos h,
    andThen_error]

theorem zextBit_readBit_toNat (c : Word) : (zextBit (readBit c)).toNat = c.toNat % 2 := by
  rw [zextBit, BitVec.toNat_setWidth, readBit_toNat]
  omega

/-- Bit 0 of BV with a bit shifted in is that bit, and every other bit is the one that stood below it. -/
theorem extractLsb'_pushBit (bv : Byte) (v : Bit) {i : Nat} (hi : i < 8) :
    ((bv <<< 1) ||| v.zeroExtend 8).extractLsb' i 1 = if i = 0 then v else bv.extractLsb' (i - 1) 1 := by
  rw [extractLsb'_one_eq_ofBool, BitVec.getLsbD_or, BitVec.getLsbD_shiftLeft, BitVec.getLsbD_setWidth]
  cases i with
  | zero => simpa using ofBool_getLsbD_zero v
  | succ i => rw [if_neg (Nat.succ_ne_zero i), extractLsb'_one_eq_ofBool]; simp [hi]

/-- Shifting a bit into BV and counting it in BVLEN appends it to the bit sequence (10_state.md R27). -/
theorem bitSeq_pushBit {s t : State} {v : Bit} (hlen : s.bvlen < 8) (hbv : t.bv = (s.bv <<< 1) ||| v.zeroExtend 8)
    (hbvlen : t.bvlen = s.bvlen + 1) : t.bitSeq = s.bitSeq ++ [v] := by
  rw [State.bitSeq, State.bitSeq, hbv, hbvlen, List.range_succ, List.map_append, List.map_singleton]
  congr 1
  · refine List.map_congr_left fun j hj => ?_
    rw [List.mem_range] at hj
    rw [extractLsb'_pushBit s.bv v (by omega), if_neg (by omega),
      show s.bvlen + 1 - 1 - j - 1 = s.bvlen - 1 - j by omega]
  · rw [extractLsb'_pushBit s.bv v (by omega), if_pos (by omega)]

/-- Settles O29: the checks in order, then the append; BV gains a bit without losing one because it has fewer than
eight. -/
theorem rdbitAppendsCarrierBit : Obligations.RdbitAppendsCarrierBit := by
  unfold Obligations.RdbitAppendsCarrierBit
  refine ⟨rfl, fun s hI => ⟨exec_rdbit_bitcount, exec_rdbit_capacity, fun c hne hpos hread => ?_,
    exec_rdbit_unwritten hI⟩⟩
  have hexec := exec_rdbit_append hI hne hpos hread
  obtain ⟨-, -, ⟨hle, hbv⟩, -⟩ := hI
  have hlen : s.bvlen < 8 := Nat.lt_of_le_of_ne hle hne
  refine ⟨_, hexec, ?_, zextBit_readBit_toNat c, ?_, rfl⟩
  · rw [← readBit_toNat]; exact pushBit_toNat s.bv (readBit c) s.bvlen hlen hbv
  · rw [← readBit_ofBool]; exact bitSeq_pushBit hlen rfl rfl

/-! ### MAP (44_pixelchannel.md R143) -/

theorem exec_map_capacity {s : State} (h : s.gridBits ≤ s.pos) : exec .map s = .next { s with err := .capacity } := by
  rw [exec, execMap, if_pos h, raise_eq]

theorem exec_map_position {s : State} (h : s.pos < s.gridBits) :
    exec .map s = .next { s with res := wordOf (s.pos % s.width), res2 := wordOf (s.pos / s.width), err := .none } := by
  rw [exec, execMap, if_neg (Nat.not_le.mpr h)]
  rfl

/-- Settles O30: column and row are at most POS, which fits a word below WIDTH * HEIGHT. -/
theorem mapGivesRasterPosition : Obligations.MapGivesRasterPosition := by
  unfold Obligations.MapGivesRasterPosition
  refine ⟨rfl, fun s hI => ⟨exec_map_capacity, fun hpos => ?_⟩⟩
  have hfit : s.pos < 2 ^ 32 := Nat.lt_trans hpos (gridBits_lt hI)
  exact ⟨Nat.pos_of_lt_mul_right hpos, _, exec_map_position hpos, wordOf_toNat ((Nat.mod_le _ _).trans_lt hfit),
    wordOf_toNat ((Nat.div_le_self _ _).trans_lt hfit), rfl⟩

end Sys2Proof.Machine
end

section
/-! PROOFS. The family 45_orchestration.md: SHOW (R160 to R162), HIDE (R151, R153) and their round trip (R152). -/

namespace Sys2Proof.Machine

/-! ### The first marker of a stream (43_framer.md R125; 45_orchestration.md R152) -/

section
variable {x y : List Byte} {n k : Nat}

@[simp] theorem frame_length (x : List Byte) : (frame x).length = x.length + 3 := List.length_append

theorem eomAt_frame (x : List Byte) : eomAt (frame x) = true := (eomAt_iff_suffix _).mpr ⟨x, rfl⟩

theorem eomAt_take_frame (x : List Byte) : eomAt ((frame x).take (x.length + 3)) = true := by
  rw [List.take_of_length_le (frame_length x).le]
  exact eomAt_frame x

theorem take_frame_of_le (h : k ≤ x.length) : (frame x).take k = x.take k := List.take_append_of_le_length h

/-- A stream that ends in the marker is the framed stream before it. -/
theorem frame_take_of_eomAt (h : eomAt y = true) : 3 ≤ y.length ∧ frame (y.take (y.length - 3)) = y := by
  obtain ⟨x, rfl⟩ := (eomAt_iff_suffix y).mp h
  rw [List.length_append, show eom.length = 3 from rfl, Nat.add_sub_cancel, List.take_left]
  exact ⟨Nat.le_add_left 3 _, rfl⟩

/-- The marker's last byte is not 00. -/
theorem eomAt_append_zero (x : List Byte) : eomAt (x ++ [0x00#8]) = false := by
  rw [Bool.eq_false_iff, ne_eq, eomAt_iff_reverse_take]
  simp [eom]

/-- Framing a marker-free stream makes no marker before its end (43_framer.md section 1): the first two bytes of the
marker are 00. -/
theorem noMarkerUpTo_frame (h : MarkerFree x) : NoMarkerUpTo (x.length + 2) (frame x) := by
  intro k hk
  by_cases hx : k ≤ x.length
  · rw [take_frame_of_le hx]
    exact h k hx
  · obtain rfl | rfl : k = x.length + 1 ∨ k = x.length + 2 := by omega
    · rw [frame, List.take_length_add_append]
      exact eomAt_append_zero x
    · rw [frame, List.take_length_add_append, show eom.take 2 = [0x00#8] ++ [0x00#8] from rfl, ← List.append_assoc]
      exact eomAt_append_zero _

/-- The first marker in `x` ends after `n` bytes. -/
def FirstMarkerEndsAt (n : Nat) (x : List Byte) : Prop :=
  eomAt (x.take n) = true ∧ ∀ k < n, eomAt (x.take k) = false

theorem FirstMarkerEndsAt.le_of_eomAt (h : FirstMarkerEndsAt n x) (hk : eomAt (x.take k) = true) : n ≤ k := by
  by_contra hlt
  rw [h.2 k (Nat.lt_of_not_le hlt)] at hk
  exact Bool.false_ne_true hk

theorem FirstMarkerEndsAt.unique (h : FirstMarkerEndsAt n x) (h' : FirstMarkerEndsAt k x) : n = k :=
  Nat.le_antisymm (h.le_of_eomAt h'.1) (h'.le_of_eomAt h.1)

/-- A framed stream holds a marker, so it holds a first one. -/
theorem exists_firstMarkerEndsAt_frame (x : List Byte) : ∃ n ≤ x.length + 3, FirstMarkerEndsAt n (frame x) := by
  have hex : ∃ n, eomAt ((frame x).take n) = true := ⟨_, eomAt_take_frame x⟩
  exact ⟨Nat.find hex, Nat.find_le (eomAt_take_frame x), Nat.find_spec hex,
    fun k hk => Bool.eq_false_iff.mpr (Nat.find_min hex hk)⟩

theorem firstMarkerEndsAt_frame_of_markerFree (h : MarkerFree x) : FirstMarkerEndsAt (x.length + 3) (frame x) :=
  ⟨eomAt_take_frame x, fun k hk => noMarkerUpTo_frame h k (Nat.le_of_lt_succ hk)⟩

/-- A marker inside a stream is met before the one that frames it. -/
theorem FirstMarkerEndsAt.in_frame (h : FirstMarkerEndsAt n x) (hn : n ≤ x.length) :
    FirstMarkerEndsAt n (frame x) := by
  refine ⟨?_, fun k hk => ?_⟩
  · rw [take_frame_of_le hn]
    exact h.1
  · rw [take_frame_of_le (by omega)]
    exact h.2 k hk

/-- What stands before the first marker of a framed stream, framed, is the stream up to that marker: no earlier marker
stops a reader of it. -/
theorem FirstMarkerEndsAt.frame_take (h : FirstMarkerEndsAt n (frame x)) (hn : n ≤ x.length + 3) :
    frame (x.take (n - 3)) = (frame x).take n ∧
      NoMarkerUpTo ((x.take (n - 3)).length + 2) (frame (x.take (n - 3))) := by
  have hlen : ((frame x).take n).length = n := by
    rw [List.length_take, frame_length]
    omega
  obtain ⟨h3, heq⟩ := frame_take_of_eomAt h.1
  rw [hlen] at h3 heq
  rw [List.take_take, Nat.min_eq_left (Nat.sub_le n 3), take_frame_of_le (by omega)] at heq
  refine ⟨heq, fun k hk => ?_⟩
  rw [List.length_take] at hk
  rw [heq, List.take_take, Nat.min_eq_left (by omega)]
  exact h.2 k (by omega)

end

/-! ### The bytes a grid spells -/

section
variable {s : State} {x y : List Byte} {n k : Nat}

theorem streamBits_append (x y : List Byte) : streamBits (x ++ y) = streamBits x ++ streamBits y :=
  List.flatMap_append

/-- A grid that spells a stream spells each of its prefixes. -/
theorem State.GridSpells.left (h : s.GridSpells (x ++ y)) : s.GridSpells x := by
  intro k hk
  rw [h k (by rw [streamBits_append, List.length_append]; omega)]
  simp only [streamBits_append, List.getElem_append_left hk]

theorem State.GridSpells.take (h : s.GridSpells x) (n : Nat) : s.GridSpells (x.take n) :=
  State.GridSpells.left (y := x.drop n) ((List.take_append_drop n x).symm ▸ h)

/-- Where the grid spells `x`, the eight pixels of byte `j` are there and their carrier bits assemble to it. -/
theorem State.GridSpells.exists_pixWords (hcap : 8 * x.length ≤ s.cfg.pixCap) (h : s.GridSpells x) {j : Nat}
    (hj : j < x.length) : ∃ cs, pixWords s 8 (8 * j) = .ok cs ∧ fromBits (cs.map readBit) = x[j] := by
  have hbit {i : Nat} (hi : i < 8) :
      (s.pix.read (8 * j + i)).map readBit = some (x[j].extractLsb' (7 - i) 1) := by
    have hlt : 8 * j + i < (streamBits x).length := by rw [streamBits_length]; omega
    rw [h _ hlt, ← List.getElem?_eq_getElem hlt, streamBits_getElem?, show (8 * j + i) / 8 = j by omega,
      show (8 * j + i) % 8 = i by omega, List.getElem?_eq_getElem hj, Option.map_some]
  obtain ⟨cs, hcs⟩ := pixWords_ok (s := s) (n := 8) (i := 8 * j) (by omega) fun k hk hk' => by
    obtain ⟨i, rfl⟩ := Nat.exists_eq_add_of_le hk
    rw [← Option.isSome_map, hbit (by omega)]
    rfl
  obtain ⟨hlen, hread⟩ := pixWords_eq_ok.mp hcs
  have hbits : cs.map readBit = toBits x[j] := by
    refine List.ext_getElem (by rw [List.length_map, hlen, toBits_length]) fun i hi hi' => ?_
    rw [List.length_map] at hi
    have hpix := hbit (i := i) (by omega)
    rw [(fetch_eq_ok.mp (hread i (by omega))).2, List.getD_eq_getElem?_getD, List.getElem?_eq_getElem hi,
      ← toBits_getElem? _ (by omega), List.getElem?_eq_getElem hi'] at hpix
    rw [List.getElem_map]
    exact Option.some.inj hpix
  exact ⟨cs, hcs, by rw [hbits, fromBits_toBits]⟩

/-! ### What SHOW decodes (45_orchestration.md R160) -/

theorem Memory.Holds.left {m : Memory 8} (h : m.Holds (x ++ y)) : m.Holds x := by
  intro j hj
  rw [h j (by rw [List.length_append]; omega), List.getElem_append_left hj]

/-- R162: STR has room for every whole byte of the grid. -/
theorem gridBytes_le_strCap (hc : s.cfg.Conforming) (hg : s.gridBits ≤ s.cfg.pixCap) :
    s.gridBits / 8 ≤ s.cfg.strCap := by
  obtain ⟨-, -, -, hcap, -⟩ := hc
  exact (Nat.div_le_div_right hg).trans hcap

section
variable (hc : s.cfg.Conforming) (hg : s.gridBits ≤ s.cfg.pixCap)
include hc hg

/-- SHOW's loop reaches the end of every marker-free stream the grid spells, with an iteration left. -/
theorem showBytes_of_gridSpells (hroom : 8 * x.length ≤ s.gridBits) (hx : s.GridSpells x) (hno : MarkerFree x) :
    ∃ n, showBytes s s.showBound [] = showBytes s (n + 1) x := by
  have hbytes := gridBytes_le_strCap hc hg
  refine ⟨s.gridBits / 8 - x.length, ?_⟩
  have hpre := showBytes_prefix hroom (by omega) (fun j hj => hx.exists_pixWords (by omega) hj) hno
    (s.gridBits / 8 - x.length + 1) x.length le_rfl
  rw [List.take_length] at hpre
  rw [← hpre, State.showBound]
  congr 1
  omega

/-- The loop stops at the first marker the grid spells. -/
theorem showBytes_marker (hroom : (x.length + 3) * 8 ≤ s.gridBits) (hx : s.GridSpells (frame x))
    (hno : NoMarkerUpTo (x.length + 2) (frame x)) : showBytes s s.showBound [] = .ok (true, frame x) := by
  have hbytes := gridBytes_le_strCap hc hg
  have hlast : frame x = (x ++ [0x00#8, 0x00#8]) ++ [0x03#8] := by
    rw [frame, List.append_assoc]
    rfl
  have hlen : (x ++ [0x00#8, 0x00#8]).length = x.length + 2 := List.length_append
  rw [hlast] at hx hno
  obtain ⟨n, hn⟩ := showBytes_of_gridSpells hc hg (by omega) hx.left fun k hk => by
    rw [← List.take_append_of_le_length hk]
    exact hno k (by omega)
  obtain ⟨cs, hcs, hbyte⟩ := hx.exists_pixWords (by simp; omega) (j := x.length + 2) (by simp)
  rw [List.getElem_append_right (by omega)] at hbyte
  simp only [hlen, Nat.sub_self, List.getElem_cons_zero] at hbyte
  rw [hn, showBytes, hlen, if_neg (by omega), hcs, Except.ok_bind', hbyte, ← hlast, if_pos (by omega),
    if_pos (eomAt_frame x)]

/-- The loop ends where fewer than eight carrier bits are left and no marker has ended. -/
theorem showBytes_noMarker (hlen : x.length = s.gridBits / 8) (hx : s.GridSpells x) (hno : MarkerFree x) :
    showBytes s s.showBound [] = .ok (false, x) := by
  obtain ⟨n, hn⟩ := showBytes_of_gridSpells hc hg (by omega) hx hno
  rw [hn, showBytes, if_pos (by omega)]

/-- The loop faults at the first unwritten pixel of the next byte. -/
theorem showBytes_unwritten (hroom : (x.length + 1) * 8 ≤ s.gridBits) (hx : s.GridSpells x) (hno : MarkerFree x)
    {p : MemId} (h : s.firstUnwritten (pixReads 8 (8 * x.length)) = some (p, k)) :
    showBytes s s.showBound [] = .error (.unwritten p k) := by
  obtain ⟨n, hn⟩ := showBytes_of_gridSpells hc hg (by omega) hx hno
  rw [hn, showBytes, if_neg (by omega), (pixWords_fault (by omega)).1 p k h, Except.error_bind']

end

/-! ### How SHOW ends (45_orchestration.md R160) -/

/-- The state of SHOW when it has found the marker behind `x` and stripped it. -/
def found (s : State) (x : List Byte) : State :=
  { s with str := s.str.writeList 0 (frame x), slen := x.length, pos := (x.length + 3) * 8, det := true }

theorem found_hasStream (s : State) (x : List Byte) : (found s x).HasStream x :=
  ⟨rfl, (Memory.holds_writeList s.str (frame x)).left⟩

/-- SHOW that has found a marker checks MSG_CAP and then decrypts. -/
theorem exec_show_of_marker (h : showBytes s s.showBound [] = .ok (true, frame x)) :
    exec .showCmd s = if s.cfg.msgCap < x.length then .next { found s x with err := .overflow }
      else finish (decryptStr (found s x)) := by
  have hfound : ({ shown s (frame x) with slen := (frame x).length - 3, det := true } : State) = found s x := by
    simp [shown, found, Nat.mul_comm]
  rw [exec, execShow_eq, h, andThen_ok]
  simp only [if_true, hfound]
  rw [frame_length, Nat.add_sub_cancel]
  rfl

/-- SHOW that has found no marker ends with NOFRAME. -/
theorem exec_show_of_noMarker (h : showBytes s s.showBound [] = .ok (false, x)) :
    exec .showCmd s = .next { shown s x with err := .noframe } := by
  rw [exec, execShow_eq, h, andThen_ok]
  rfl

theorem exec_show_of_fault {f : Fault} (h : showBytes s s.showBound [] = .error f) : exec .showCmd s = .fault f := by
  rw [exec, execShow_eq, h, andThen_error]

/-- SHOW that has found a marker and has room and a key puts the deciphered stream into MSG. -/
theorem exec_show_decrypt (hc : s.cfg.Conforming) (hklen : s.klen ≤ s.cfg.keyCap) {key : List Byte}
    (h : showBytes s s.showBound [] = .ok (true, frame x)) (hmsg : x.length ≤ s.cfg.msgCap)
    (hkey : s.HasKey x.length key) :
    exec .showCmd s = .next { found s x with msg := s.msg.writeList 0 (crypt x key), mlen := x.length,
                                             err := .none } := by
  obtain ⟨-, -, hcap, -⟩ := hc
  have hstr : x.length ≤ s.cfg.strCap := by omega
  rw [exec_show_of_marker h, if_neg (Nat.not_lt.mpr hmsg),
    decryptStr_ok (s := found s x) (found_hasStream s x) hkey hmsg hstr hklen, finish_ok]
  rfl

/-- Deciphering a stream that is there reads nothing unwritten but KEY. -/
theorem firstUnwritten_cryptReads_str {klen : Nat} (hk : klen ≠ 0) {i : Nat}
    (hread : ∀ j, i ≤ j → j < i + n → (s.str.read j).isSome) :
    s.firstUnwritten (cryptReads .str klen n i) =
      s.firstUnwritten ((List.range' i n).map fun j => (.key, j % klen)) := by
  induction n generalizing i with
  | zero => rfl
  | succ n ih =>
    have hi := hread i le_rfl (by omega)
    rw [cryptReads, if_neg hk, List.singleton_append, List.range'_succ, List.map_cons, firstUnwritten_cons,
      if_neg (by simpa [State.element, Option.isSome_iff_ne_none] using hi), firstUnwritten_cons, firstUnwritten_cons,
      ih fun j hj hj' => hread j (by omega) (by omega)]

/-- SHOW that has found a marker and has room faults at the first unwritten key byte. -/
theorem exec_show_key_unwritten (hc : s.cfg.Conforming) (hklen : s.klen ≤ s.cfg.keyCap)
    (h : showBytes s s.showBound [] = .ok (true, frame x)) (hmsg : x.length ≤ s.cfg.msgCap) (hk : s.klen ≠ 0)
    {p : MemId} (hun : s.firstUnwritten ((List.range x.length).map fun i => (.key, i % s.klen)) = some (p, k)) :
    exec .showCmd s = .fault (.unwritten p k) := by
  obtain ⟨hlen, hheld⟩ := found_hasStream s x
  have hreads : (found s x).firstUnwritten (cryptReads .str s.klen x.length 0) = some (p, k) := by
    rw [firstUnwritten_cryptReads_str hk fun j _ hj => by rw [hheld j (by omega)]; rfl, ← List.range_eq_range', ← hun]
    simp only [State.firstUnwritten, List.find?_map]
    rfl
  rw [exec_show_of_marker h, if_neg (Nat.not_lt.mpr hmsg),
    (decryptStr_reads (s := found s x) hc hklen hmsg).1 p k hreads, finish_error]

end

/-- Settles O32: what the grid spells decides what the loop decodes, and that decides how SHOW ends. -/
theorem showDecodesUpToFirstMarker : Obligations.ShowDecodesUpToFirstMarker := by
  unfold Obligations.ShowDecodesUpToFirstMarker
  refine ⟨rfl, fun s x hI => ?_⟩
  have hg := gridBits_le_pixCap hI
  obtain ⟨hc, ⟨-, -, hklen, -⟩, -⟩ := hI
  refine ⟨fun hroom hx hno => ?_, fun hx hno => ⟨fun hlen => ?_, fun p k hroom h => ?_⟩⟩
  · have hshow := showBytes_marker hc hg hroom hx hno
    have hheld := Memory.holds_writeList s.str (frame x)
    have hbeyond (k : Nat) (hk : x.length + 3 ≤ k) : (s.str.writeList 0 (frame x)).read k = s.str.read k :=
      Memory.read_writeList_beyond _ _ (by rwa [frame_length])
    refine ⟨fun hmsg => ⟨fun key hkey => ?_, fun p k hk => ?_⟩, fun hmsg => ?_⟩
    · exact ⟨_, exec_show_decrypt hc hklen hshow hmsg hkey, hheld, hbeyond, Memory.holds_writeList _ _,
        fun k hk => Memory.read_writeList_beyond _ _ (by rwa [crypt_length]), rfl⟩
    · exact exec_show_key_unwritten hc hklen hshow hmsg hk
    · exact ⟨_, by rw [exec_show_of_marker hshow, if_pos hmsg], hheld, hbeyond, rfl⟩
  · exact ⟨_, exec_show_of_noMarker (showBytes_noMarker hc hg hlen hx hno), Memory.holds_writeList _ _,
      fun k hk => Memory.read_writeList_beyond _ _ hk, rfl⟩
  · rw [Nat.mul_comm] at h
    exact exec_show_of_fault (showBytes_unwritten hc hg hroom hx hno h)

/-! ### SHOW's bound (45_orchestration.md R162) and the key (R161) -/

section
variable {s : State} {x : List Byte} {n k : Nat}

/-- Everything but MSG, MLEN and the key's faults follows from what the loop decodes. -/
theorem exec_show_raw {t : State} (h : exec .showCmd s = .next t) :
    ∃ hit x, showBytes s s.showBound [] = .ok (hit, x) ∧ t.str = s.str.writeList 0 x ∧ t.pos = 8 * x.length ∧
      t.det = hit ∧ t.slen = (if hit then x.length - 3 else x.length) ∧
      t.err = if hit then (if s.cfg.msgCap < x.length - 3 then .overflow else .none) else .noframe := by
  obtain ⟨hit, x, hb, ⟨rfl, rfl⟩ | ⟨rfl, -, hover, rfl⟩ | ⟨rfl, -, hmsg, -, m, rfl⟩⟩ := exec_show_next h
  · exact ⟨false, x, hb, rfl, rfl, rfl, rfl, rfl⟩
  · exact ⟨true, x, hb, rfl, rfl, rfl, rfl, by rw [if_pos rfl, if_pos hover]⟩
  · exact ⟨true, x, hb, rfl, rfl, rfl, rfl, by rw [if_pos rfl, if_neg (Nat.not_lt.mpr hmsg)]⟩

/-- The whole bytes SHOW decodes fit the grid. -/
theorem showBytes_length_le {hit : Bool} (h : showBytes s n [] = .ok (hit, x)) : x.length ≤ s.gridBits / 8 := by
  obtain ⟨⟨z, hz, hfit⟩, -⟩ := showBytes_cases h
  rw [List.nil_append] at hz
  subst hz
  cases x with
  | nil => exact Nat.zero_le _
  | cons b z =>
    obtain ⟨hle, -⟩ := hfit (List.cons_ne_nil b z)
    omega

/-- After a marker is found, only unwritten elements make SHOW fault. -/
theorem decryptStr_ne_noSuchElement (hc : s.cfg.Conforming) (hklen : s.klen ≤ s.cfg.keyCap)
    (hmsg : s.slen ≤ s.cfg.msgCap) (m : MemId) : decryptStr s ≠ .error (.noSuchElement m k) := by
  obtain ⟨hfault, hok⟩ := decryptStr_reads hc hklen hmsg
  intro h
  cases hun : s.firstUnwritten (cryptReads .str s.klen s.slen 0) with
  | none =>
    obtain ⟨bs, -, hbs⟩ := hok hun
    rw [hbs] at h
    exact nomatch h
  | some p =>
    rw [hfault p.1 p.2 hun] at h
    exact nomatch h

/-- SHOW never reaches an element that does not exist. -/
theorem exec_show_ne_noSuchElement (hc : s.cfg.Conforming) (hg : s.gridBits ≤ s.cfg.pixCap)
    (hklen : s.klen ≤ s.cfg.keyCap) (m : MemId) : exec .showCmd s ≠ .fault (.noSuchElement m k) := by
  rw [exec, execShow_eq]
  intro h
  rcases andThen_eq_fault.mp h with hloop | ⟨⟨hit, x⟩, -, hend⟩
  · obtain ⟨j, hj, -⟩ := showBytes_error hg (gridBytes_le_strCap hc hg) hloop
    exact nomatch hj
  · cases hit with
    | false => exact nomatch hend
    | true =>
      simp only [if_true] at hend
      split at hend
      next => exact nomatch hend
      next hmsg =>
        exact decryptStr_ne_noSuchElement (s := { shown s x with slen := x.length - 3, det := true }) hc hklen
          (Nat.not_lt.mp hmsg) m (finish_eq_fault.mp hend)

end

/-- Settles O43: the loop is its decoded bytes, of which the grid bounds the number. -/
theorem showLoopIsBounded : Obligations.ShowLoopIsBounded := by
  unfold Obligations.ShowLoopIsBounded
  intro s hI
  have hg := gridBits_le_pixCap hI
  obtain ⟨hc, ⟨-, -, hklen, -⟩, -⟩ := hI
  refine ⟨gridBytes_le_strCap hc hg, fun n hn => ?_, fun t ht => ?_, fun k => ?_⟩
  · obtain ⟨d, rfl⟩ := Nat.exists_eq_add_of_le hn
    have hbound : showBytes s (s.showBound + d) [] = showBytes s s.showBound [] :=
      showBytes_bound (Nat.lt_succ_self _) d
    exact (showLoop_eq s _ []).trans (hbound ▸ (showLoop_eq s _ []).symm)
  · obtain ⟨hit, x, hb, -, hpos, -⟩ := exec_show_raw ht
    have hlen := showBytes_length_le hb
    rw [State.gridBits] at hlen
    omega
  · exact exec_show_ne_noSuchElement hc hg hklen .str

/-- `keyByte(i)` of a key (41_cipher.md R100). -/
def cipherKeyByte (key : List Byte) (i : Nat) : Byte :=
  if key.length = 0 then 0x00#8 else key.getD (i % key.length) 0x00#8

theorem getElem_crypt {m key : List Byte} {i : Nat} (h : i < m.length) (h' : i < (crypt m key).length) :
    (crypt m key)[i] = m[i] ^^^ cipherKeyByte key i := by
  have hbyte := getElem?_crypt m key i
  rw [List.getElem?_eq_getElem h', List.getElem?_eq_getElem h, Option.map_some, Option.some.injEq] at hbyte
  rw [hbyte, cipherKeyByte]
  cases key <;> rfl

/-- Two key bytes leave a byte as it was exactly where they agree. -/
theorem xor_xor_eq_self_iff (b u v : Byte) : b ^^^ u ^^^ v = b ↔ u = v := by
  rw [xor_eq_iff_left_eq, (xor_right_involutive b).injective.eq_iff]

/-- Settles O42: SHOW's raw part does not depend on the key, and decryption is `crypt` with the key that is there. -/
theorem showWithWrongKey : Obligations.ShowWithWrongKey := by
  unfold Obligations.ShowWithWrongKey
  refine ⟨fun s t t' n key' ht ht' => ?_, fun s m key key' hI hroom hx hfree hmsg hkey' => ?_⟩
  · obtain ⟨hit, x, hb, hstr, hpos, hdet, hslen, herr⟩ := exec_show_raw ht
    obtain ⟨hit', x', hb', hstr', hpos', hdet', hslen', herr'⟩ := exec_show_raw ht'
    have hraw := showBytes_congr (s := s) (t := { s with klen := n, key := key' }) rfl rfl rfl rfl s.showBound []
    obtain ⟨rfl, rfl⟩ := Prod.mk.inj (Except.ok.inj (hb'.symm.trans (hraw.trans hb)))
    exact ⟨hstr'.trans hstr.symm, hslen'.trans hslen.symm, hpos'.trans hpos.symm, hdet'.trans hdet.symm,
      herr'.trans herr.symm⟩
  · have hg := gridBits_le_pixCap hI
    obtain ⟨hc, ⟨-, -, hklen, -⟩, -⟩ := hI
    have hlen := crypt_length m key
    rw [← hlen] at hroom hmsg hkey'
    have hshow := exec_show_decrypt hc hklen (showBytes_marker hc hg hroom hx (noMarkerUpTo_frame hfree)) hmsg hkey'
    have hheld := Memory.holds_writeList s.msg (crypt (crypt m key) key')
    refine ⟨_, hshow, rfl, hlen, hheld, fun i hi => ?_⟩
    have hread : (s.msg.writeList 0 (crypt (crypt m key) key')).read i =
        some (m[i] ^^^ cipherKeyByte key i ^^^ cipherKeyByte key' i) := by
      have hi' : i < (crypt m key).length := hlen ▸ hi
      rw [hheld i (by rwa [crypt_length]), getElem_crypt hi', getElem_crypt hi]
    refine ⟨hread, ?_⟩
    rw [hread, Option.some.injEq]
    exact xor_xor_eq_self_iff _ _ _

/-! ### HIDE in PIX (45_orchestration.md R150, R151) -/

/-- HIDE embeds from word 0 on, eight bits for each byte of the framed message. -/
theorem exec_hide_pix_read_of_need_le {s t : State} {k : Nat} (h : exec .hide s = .next t)
    (hk : (s.mlen + 3) * 8 ≤ k) : t.pix.read k = s.pix.read k := by
  obtain ⟨m, -, -, ⟨-, rfl⟩ | ⟨-, p, hemb, rfl⟩⟩ := exec_hide_next h
  · rfl
  · obtain ⟨vs, hlen, hbits⟩ := embedBytes_bits hemb
    exact ((embedBits_pix hbits).1 k).trans (if_neg (by dsimp only; omega))

theorem CarrierUpdate.xor_of_some {n k : Nat} {p q : Memory 32} {c : Word} (h : CarrierUpdate n p q)
    (hk : p.read k = some c) : ∃ c', q.read k = some c' ∧ (c' ^^^ c = 0#32 ∨ c' ^^^ c = 1#32) := by
  rcases h k with h | ⟨-, v, h⟩
  · exact ⟨c, h.trans hk, .inl BitVec.xor_self⟩
  · exact ⟨writeBit c v, by rw [h, hk]; rfl, writeBit_xor_self_eq_zero_or_one c v⟩

/-- Settles O41: HIDE makes a carrier update, which reaches no word beyond those it needs. -/
theorem hideChangesOnlyCarrierBits : Obligations.HideChangesOnlyCarrierBits := by
  unfold Obligations.HideChangesOnlyCarrierBits
  intro s t h
  exact ⟨fun _ => exec_hide_pix_read_of_need_le h, fun _ _ => (exec_hide_carrierUpdate h).xor_of_some⟩

/-! ### How HIDE ends (45_orchestration.md R150, R153) -/

/-- The state of HIDE when the ciphertext `c` is framed in STR and its need is compared with the grid. -/
def framed (s : State) (c : List Byte) : State :=
  { s with str := s.str.writeList 0 (frame c), slen := s.mlen + 3, res := BitVec.ofNat 32 ((s.mlen + 3) * 8),
           res2 := BitVec.ofNat 32 (s.width * s.height) }

section
variable {s : State} {m key : List Byte} (hI : s.Inv) (hm : s.HasMessage m) (hkey : s.HasKey m.length key)
include hI hm hkey

/-- HIDE whose message and key are there frames its ciphertext and then checks the capacity. -/
theorem exec_hide_of_message : exec .hide s =
    if (s.mlen + 3) * 8 ≤ s.width * s.height then
      finish (embedBits (streamBits (frame (crypt m key))) { framed s (crypt m key) with pos := 0 })
    else .next { framed s (crypt m key) with err := .capacity } := by
  have hlen : (crypt m key).length = s.mlen := (crypt_length m key).trans hm.1
  have hexec := (exec_hide_cases hI).2 (crypt m key) hlen
  obtain ⟨⟨-, -, hcap, -⟩, ⟨-, -, hklen, hmlen, -⟩, -⟩ := hI
  exact hexec (encryptMsg_ok hm hkey hmlen (by omega) hklen)

/-- HIDE with a framed message that does not fit changes no PIX word. -/
theorem exec_hide_capacity (hroom : s.width * s.height < (s.mlen + 3) * 8) :
    exec .hide s = .next { framed s (crypt m key) with err := .capacity } := by
  rw [exec_hide_of_message hI hm hkey, if_neg (Nat.not_le.mpr hroom)]

/-- HIDE with a framed message that fits makes the grid spell it. -/
theorem exec_hide_embed (hroom : (s.mlen + 3) * 8 ≤ s.width * s.height) (hload : s.GridLoaded ((s.mlen + 3) * 8)) :
    ∃ p, exec .hide s =
        .next { framed s (crypt m key) with pix := p, pos := (s.mlen + 3) * 8, err := .none } ∧
      State.GridSpells { s with pix := p } (frame (crypt m key)) := by
  have hg := gridBits_le_pixCap hI
  have hlen : (streamBits (frame (crypt m key))).length = (s.mlen + 3) * 8 := by
    rw [streamBits_length, frame_length, crypt_length, hm.1, Nat.mul_comm]
  obtain ⟨cs, hcs⟩ := pixWords_ok (s := { framed s (crypt m key) with pos := 0 }) (n := (s.mlen + 3) * 8) (i := 0)
    ((Nat.zero_add _).trans_le (hroom.trans hg)) fun k _ hk => hload k (by omega)
  have hemb := embedBits_eq (streamBits (frame (crypt m key))) { framed s (crypt m key) with pos := 0 }
  rw [hlen, hcs, Except.ok_bind', Nat.zero_add] at hemb
  refine ⟨_, by rw [exec_hide_of_message hI hm hkey, if_pos hroom, hemb, finish_ok], fun k hk => ?_⟩
  have hread := (embedBits_pix hemb).1 k
  dsimp only at hread ⊢
  rw [hread, if_pos (by omega)]
  obtain ⟨c, hc⟩ := Option.isSome_iff_exists.mp (hload k (by omega))
  have hpix : (framed s (crypt m key)).pix.read k = some c := hc
  rw [hpix, Option.map_some, Option.map_some, readBit_writeBit, Nat.sub_zero, List.getD_eq_getElem?_getD,
    List.getElem?_eq_getElem hk, Option.getD_some]

end

/-- Settles O40: the capacity test decides between the two ends of HIDE. -/
theorem hideCapacityBoundary : Obligations.HideCapacityBoundary := by
  unfold Obligations.HideCapacityBoundary
  intro s m key hI hm hkey hload
  by_cases hroom : (s.mlen + 3) * 8 ≤ s.width * s.height
  · obtain ⟨p, hhide, -⟩ := exec_hide_embed hI hm hkey hroom fun k hk => hload k (by omega)
    exact ⟨_, hhide, iff_of_true rfl hroom, fun herr => absurd rfl herr⟩
  · exact ⟨_, exec_hide_capacity hI hm hkey (Nat.lt_of_not_le hroom), iff_of_false nofun hroom, fun _ => ⟨rfl, rfl⟩⟩

/-! ### HIDE and then SHOW (45_orchestration.md R152) -/

theorem crypt_take (m key : List Byte) (n : Nat) : crypt (m.take n) key = (crypt m key).take n := by
  refine List.ext_getElem? fun i => ?_
  rw [getElem?_crypt, List.getElem?_take, List.getElem?_take, getElem?_crypt]
  split <;> rfl

/-- Ciphering fewer bytes needs no more of the key. -/
theorem State.HasKey.mono {s : State} {n k : Nat} {key : List Byte} (h : s.HasKey n key) (hk : k ≤ n) :
    s.HasKey k key := by
  obtain ⟨hlen, hheld⟩ := h
  refine ⟨hlen, Memory.Holds.left (y := (key.take n).drop k) ?_⟩
  have hprefix : key.take k = (key.take n).take k := by rw [List.take_take, Nat.min_eq_left hk]
  rwa [hprefix, List.take_append_drop]

/-- After HIDE, SHOW gives the message up to the first marker of the framed ciphertext. -/
theorem exec_hide_exec_show {s : State} {m key : List Byte} {n : Nat} (hI : s.Inv) (hm : s.HasMessage m)
    (hkey : s.HasKey m.length key) (hroom : (s.mlen + 3) * 8 ≤ s.width * s.height)
    (hload : s.GridLoaded ((s.mlen + 3) * 8)) (hn : FirstMarkerEndsAt n (frame (crypt m key)))
    (hle : n ≤ m.length + 3) :
    ∃ t u, exec .hide s = .next t ∧ exec .showCmd t = .next u ∧ u.err = .none ∧ u.det = true ∧ u.mlen = n - 3 ∧
      u.msg.Holds (m.take (n - 3)) := by
  obtain ⟨p, hhide, hspells⟩ := exec_hide_embed hI hm hkey hroom hload
  obtain ⟨hmlen, -⟩ := hm
  have hg := gridBits_le_pixCap hI
  obtain ⟨hc, ⟨-, -, hklen, hmsg, -⟩, -⟩ := hI
  have hlen := crypt_length m key
  obtain ⟨hx, hno⟩ := hn.frame_take (hlen.symm ▸ hle)
  have hxlen : ((crypt m key).take (n - 3)).length = n - 3 := by rw [List.length_take]; omega
  have hfit : (((crypt m key).take (n - 3)).length + 3) * 8 ≤ s.gridBits := by
    rw [hxlen, State.gridBits]
    omega
  have hmsgfit : ((crypt m key).take (n - 3)).length ≤ s.cfg.msgCap := by omega
  have hshow := exec_show_decrypt (s := { framed s (crypt m key) with pix := p, pos := (s.mlen + 3) * 8, err := .none })
    hc hklen (showBytes_marker hc hg hfit (hx ▸ hspells.take n) hno) hmsgfit (hkey.mono (by omega))
  refine ⟨_, _, hhide, hshow, rfl, rfl, hxlen, ?_⟩
  rw [crypt_take, crypt_crypt]
  exact Memory.holds_writeList _ _

/-- Settles O39: SHOW stops at the first marker of the framed ciphertext, which is its end when the ciphertext holds
none. -/
theorem hideThenShowRoundTrip : Obligations.HideThenShowRoundTrip := by
  unfold Obligations.HideThenShowRoundTrip
  intro s m key hI hm hkey hroom hload
  have hlen := crypt_length m key
  obtain ⟨n, hle, hn⟩ := exists_firstMarkerEndsAt_frame (crypt m key)
  rw [hlen] at hle
  rw [hm.1] at hroom
  obtain ⟨t, u, hhide, hshow, herr, hdet, hmlen, hmsg⟩ :=
    exec_hide_exec_show hI hm hkey hroom (fun k hk => hload k (by omega)) hn hle
  refine ⟨t, u, hhide, hshow, herr, hdet, fun hfree => ?_, fun k hk hit hno => ?_⟩
  · obtain rfl := hn.unique (firstMarkerEndsAt_frame_of_markerFree hfree)
    rw [hlen, Nat.add_sub_cancel] at hmlen hmsg
    exact ⟨hmlen, List.take_length (l := m) ▸ hmsg⟩
  · obtain rfl := hn.unique (FirstMarkerEndsAt.in_frame ⟨hit, hno⟩ (hlen.symm ▸ hk))
    exact ⟨hmlen, hmsg⟩

end Sys2Proof.Machine
end

section
/-! PROOFS. The family 60_exceptions.md: the host ports, and which refusal answers each protocol violation (R185). -/

namespace Sys2Proof.Machine

/-! ### The step at each host port (60_exceptions.md R184) -/

section

variable {s : State} {rest : List HostOp} (hm : s.faultMark = false)
include hm

/-- An unmarked state performs its next operation without the test of the mark. -/
theorem step_regWrite {r v : Nat} (hin : s.inbox = .regWrite r v :: rest) :
    step s = regWrite r v { s with inbox := rest } := by
  rw [step, hin]
  exact unlessMarked_clear hm _

theorem step_regRead {r : Nat} (hin : s.inbox = .regRead r :: rest) :
    step s = regRead r { s with inbox := rest } := by
  rw [step, hin]
  exact unlessMarked_clear hm _

theorem step_memWrite {m : MemId} {i v : Nat} (hin : s.inbox = .memWrite m i v :: rest) :
    step s = memWrite m i v { s with inbox := rest } := by
  rw [step, hin]
  exact unlessMarked_clear hm _

theorem step_memRead {m : MemId} {i : Nat} (hin : s.inbox = .memRead m i :: rest) :
    step s = memRead m i { s with inbox := rest } := by
  rw [step, hin]
  exact unlessMarked_clear hm _

end

/-! ### The register port's refusals (60_exceptions.md R185; 10_state.md R22) -/

/-- The indices above RES2 are not assigned. -/
theorem RegId.ofIndex_eq_none {r : Nat} (h : 0xB ≤ r) : RegId.ofIndex r = none := by
  obtain ⟨k, rfl⟩ := Nat.exists_eq_add_of_le' h
  rfl

theorem regWrite_unassigned {r : Nat} (h : 0xB ≤ r) (v : Nat) (s : State) :
    regWrite r v s = .refused (.unassignedRegister r) := by
  rw [regWrite, RegId.ofIndex_eq_none h]

theorem regRead_unassigned {r : Nat} (h : 0xB ≤ r) (s : State) :
    regRead r s = .refused (.unassignedRegister r) := by
  rw [regRead, RegId.ofIndex_eq_none h]

/-- STATUS, BVR, RES and RES2 take no host write, whatever the value. -/
theorem regWrite_readOnly {r : Nat} (h : r = 0x1 ∨ r = 0x8 ∨ r = 0x9 ∨ r = 0xA) (v : Nat) (s : State) :
    regWrite r v s = .refused (.readOnlyRegister r) := by
  rcases h with rfl | rfl | rfl | rfl <;> rfl

theorem setWithin_above {v max : Nat} (h : max < v) (r : Nat) (t : State) :
    setWithin r v max t = .refused (.registerValueOutOfRange r v) :=
  if_neg (Nat.not_le.mpr h)

/-- The value `v` is above every legal value of the writable register with index `r` (R22). -/
def AboveRegister (c : Config) (r v : Nat) : Prop :=
  (r = 0x0 ∧ 2 ^ 32 ≤ v) ∨ (r = 0x2 ∧ c.maxW < v) ∨ (r = 0x3 ∧ c.maxH < v) ∨ (r = 0x4 ∧ c.keyCap < v) ∨
    (r = 0x5 ∧ c.msgCap < v) ∨ (r = 0x6 ∧ c.strCap < v) ∨ (r = 0x7 ∧ c.pixCap < v)

/-- CMD takes 32-bit words, and each other writable register only values within its bound. -/
theorem regWrite_above {r v : Nat} {s : State} (h : AboveRegister s.cfg r v) :
    regWrite r v s = .refused (.registerValueOutOfRange r v) := by
  rcases h with ⟨rfl, h⟩ | h
  · exact if_neg (Nat.not_lt.mpr h)
  · rcases h with ⟨rfl, h⟩ | ⟨rfl, h⟩ | ⟨rfl, h⟩ | ⟨rfl, h⟩ | ⟨rfl, h⟩ | ⟨rfl, h⟩ <;> exact setWithin_above h _ _

/-! ### The memory port's refusals (60_exceptions.md R185) -/

theorem memWrite_beyond {m : MemId} {i v : Nat} {s : State} (h : capacity s.cfg m ≤ i) :
    memWrite m i v s = .refused (.memoryIndexOutOfRange m i) :=
  if_neg (Nat.not_lt.mpr h)

theorem memRead_beyond {m : MemId} {i : Nat} {s : State} (h : capacity s.cfg m ≤ i) :
    memRead m i s = .refused (.memoryIndexOutOfRange m i) :=
  if_neg (Nat.not_lt.mpr h)

theorem asByte_above {v : Nat} (h : 255 < v) (m : MemId) (k : Byte → State) :
    asByte m v k = .refused (.memoryValueOutOfRange m v) :=
  if_neg (Nat.not_lt.mpr h)

/-- Within the capacity, a byte memory refuses a value that is no byte. -/
theorem memWrite_not_byte {m : MemId} {i v : Nat} {s : State} (hi : i < capacity s.cfg m) (hm : m ≠ .pix)
    (hv : 255 < v) : memWrite m i v s = .refused (.memoryValueOutOfRange m v) := by
  cases m with
  | key | msg | str => exact (if_pos hi).trans (asByte_above hv _ _)
  | pix => exact absurd rfl hm

/-- Settles O12: an unmarked state's step is the port's operation, and the port refuses each violation; a value that is
no byte at an index beyond the capacity is refused for its index. -/
theorem hostViolationsAreRefused : Obligations.HostViolationsAreRefused := by
  unfold Obligations.HostViolationsAreRefused
  intro s rest hm
  refine ⟨fun r v hin h => ?readOnly, fun r hin h => ?regRead, fun r v hin h => ?registerValue,
    fun m i v hin h => ?writeIndex, fun m i hin h => ?readIndex, fun m i v hin hpix hv => ?byteValue⟩
  case readOnly =>
    rw [step_regWrite hm hin]
    rcases Nat.lt_or_ge r 0xB with hr | hr
    · exact ⟨_, regWrite_readOnly (by omega) v _⟩
    · exact ⟨_, regWrite_unassigned hr v _⟩
  case regRead =>
    rcases h with rfl | hr
    · exact ⟨_, step_regRead_cmd hm hin⟩
    · exact ⟨_, (step_regRead hm hin).trans (regRead_unassigned hr _)⟩
  case registerValue => exact ⟨_, (step_regWrite hm hin).trans (regWrite_above h)⟩
  case writeIndex => exact ⟨_, (step_memWrite hm hin).trans (memWrite_beyond h)⟩
  case readIndex => exact ⟨_, (step_memRead hm hin).trans (memRead_beyond h)⟩
  case byteValue =>
    rw [step_memWrite hm hin]
    rcases Nat.lt_or_ge i (capacity s.cfg m) with hi | hi
    · exact ⟨_, memWrite_not_byte hi hpix hv⟩
    · exact ⟨_, memWrite_beyond hi⟩

end Sys2Proof.Machine
end

section
/-! PROOFS. The family 70_reset_and_hazards.md: the host's Reset operation (R190) and the state it leaves (R34). -/

namespace Sys2Proof.Machine

/-- Reset is the one operation that a set fault mark does not stop, and the step's own state gives only the parameters
and the queues. -/
theorem step_reset {s : State} {rest : List HostOp} (hin : s.inbox = .reset :: rest) :
    step s = .next { State.resetOf s.cfg with inbox := rest, outbox := s.outbox } := by
  rw [step, hin]
  rfl

theorem State.statusWord_eq_zero {s : State} (herr : s.err = .none) (hdet : s.det = false) : s.statusWord = 0#32 := by
  rw [State.statusWord, herr, hdet]
  rfl

/-- No element is written where no memory lists one. -/
theorem State.element_eq_none {s : State} (hkey : s.key = []) (hmsg : s.msg = []) (hstr : s.str = [])
    (hpix : s.pix = []) (m : MemId) (i : Nat) : s.element m i = none := by
  cases m with
  | key => simp [State.element, hkey]
  | msg => simp [State.element, hmsg]
  | str => simp [State.element, hstr]
  | pix => simp [State.element, hpix]

/-- Settles O11: the step ends in the state after power-on but for the queues, so each register is the one of
`State.resetOf`; STATUS is computed from two of them, and the elements are read from the four empty memories. -/
theorem resetOperationClearsEverything : Obligations.ResetOperationClearsEverything := by
  unfold Obligations.ResetOperationClearsEverything
  intro s rest hin
  exact ⟨_, step_reset hin, by simp [State.statusWord_eq_zero, State.element_eq_none]⟩

end Sys2Proof.Machine
end

section
/-! PROOFS. What commands write (10_state.md sections 3 and 4), and the invariant of the machine: after reset, and
after every command and every host operation. -/

namespace Sys2Proof

/-- Settles O1: the fields of each format's word are the operands, an index below 2^20 included. -/
theorem decodeInvertsEncode : Obligations.DecodeInvertsEncode := by
  unfold Obligations.DecodeInvertsEncode
  exact fun _ => decode_encode

end Sys2Proof

namespace Sys2Proof.Machine

/-! ### What commands write (10_state.md sections 3 and 4) -/

/-- Settles O18: for each command, what its own lemma says it can do names no other register and no other memory. -/
theorem commandsWriteOnlyTheirRegisters : Obligations.CommandsWriteOnlyTheirRegisters := by
  unfold Obligations.CommandsWriteOnlyTheirRegisters
  intro i s t h
  cases i with
  | crypt d =>
    rcases bit_cases d with rfl | rfl
    · obtain ⟨m, rfl⟩ := exec_crypt_zero_next h
      simp
    · obtain rfl | ⟨m, rfl⟩ := exec_crypt_one_next h <;> simp
  | xorb idx b =>
    obtain ⟨r, rfl⟩ := exec_xorb_next h
    simp
  | tobits b =>
    obtain rfl := Host.Outcome.next.inj ((exec_tobits b s).symm.trans h)
    simp
  | frombits => obtain rfl | rfl | ⟨v, -, rfl⟩ := exec_frombits_next h <;> simp
  | frame => obtain rfl | ⟨-, rfl⟩ := exec_frame_next h <;> simp
  | detect => obtain rfl | rfl := exec_detect_next h <;> simp
  | capchk =>
    obtain rfl := exec_capchk_next h
    simp
  | wrbit v => obtain rfl | ⟨c, -, -, -, rfl⟩ := exec_wrbit_next h <;> simp
  | rdbit => obtain rfl | rfl | ⟨c, -, -, rfl⟩ := exec_rdbit_next h <;> simp
  | map => obtain rfl | ⟨r, r2, rfl⟩ := exec_map_next h <;> simp
  | hide => obtain ⟨m, -, -, ⟨-, rfl⟩ | ⟨-, p, -, rfl⟩⟩ := exec_hide_next h <;> simp
  | showCmd =>
    obtain ⟨hit, x, -, ⟨-, rfl⟩ | ⟨-, -, -, rfl⟩ | ⟨-, -, -, -, m, rfl⟩⟩ := exec_show_next h <;> simp [shown]

/-- No command touches the fault mark. -/
theorem exec_next_faultMark {i : Instr} {s t : State} (h : exec i s = .next t) : t.faultMark = s.faultMark := by
  obtain ⟨⟨-, -, -, -, -, hmark, -⟩, -⟩ := commandsWriteOnlyTheirRegisters i s t h
  exact hmark

/-! ### The invariant after reset (10_state.md section 7) -/

theorem State.inv_resetOf {c : Config} (hc : c.Conforming) : (State.resetOf c).Inv := by
  refine ⟨hc, ?registers, ?bits, ?memories⟩
  case registers => simp [State.RegistersLegal]
  case bits => simp [State.BitSequenceLegal]
  case memories => simp [State.MemoriesLegal, Memory.wf, Memory.InRange]

/-- Settles O16: every register is 0 and every memory is empty, and the reference parameters conform. -/
theorem resetMeetsInvariant : Obligations.ResetMeetsInvariant := by
  unfold Obligations.ResetMeetsInvariant
  exact ⟨fun _ => State.inv_resetOf, State.inv_resetOf (by decide)⟩

/-! ### What an update must bring to keep the invariant (10_state.md R22, R27, R32) -/

section
variable {s t : State}

theorem State.Inv.withMessage (hI : s.Inv) {m : Memory 8} {n : Nat} (hm : m.wf ∧ m.InRange s.cfg.msgCap)
    (hn : n ≤ s.cfg.msgCap) : State.Inv { s with msg := m, mlen := n } := by
  obtain ⟨hc, ⟨hw, hh, hk, -, hslen, hpos⟩, hbits, hkey, -, hstr, hpix⟩ := hI
  exact ⟨hc, ⟨hw, hh, hk, hn, hslen, hpos⟩, hbits, hkey, hm, hstr, hpix⟩

theorem State.Inv.withStream (hI : s.Inv) {m : Memory 8} {n : Nat} (hm : m.wf ∧ m.InRange s.cfg.strCap)
    (hn : n ≤ s.cfg.strCap) : State.Inv { s with str := m, slen := n } := by
  obtain ⟨hc, ⟨hw, hh, hk, hmlen, -, hpos⟩, hbits, hkey, hmsg, -, hpix⟩ := hI
  exact ⟨hc, ⟨hw, hh, hk, hmlen, hn, hpos⟩, hbits, hkey, hmsg, hm, hpix⟩

theorem State.Inv.withGrid (hI : s.Inv) {m : Memory 32} {n : Nat} (hm : m.wf ∧ m.InRange s.cfg.pixCap)
    (hn : n ≤ s.cfg.pixCap) : State.Inv { s with pix := m, pos := n } := by
  obtain ⟨hc, ⟨hw, hh, hk, hmlen, hslen, -⟩, hbits, hkey, hmsg, hstr, -⟩ := hI
  exact ⟨hc, ⟨hw, hh, hk, hmlen, hslen, hn⟩, hbits, hkey, hmsg, hstr, hm⟩

theorem State.Inv.withBits (hI : s.Inv) {b : Byte} {n : Nat} (hn : n ≤ 8) (hb : b.toNat < 2 ^ n) :
    State.Inv { s with bv := b, bvlen := n } := by
  obtain ⟨hc, hregs, -, hmems⟩ := hI
  exact ⟨hc, hregs, ⟨hn, hb⟩, hmems⟩

theorem State.Inv.msgLegal (hI : s.Inv) : s.msg.wf ∧ s.msg.InRange s.cfg.msgCap := by
  obtain ⟨-, -, -, -, hmsg, -, -⟩ := hI
  exact hmsg

theorem State.Inv.strLegal (hI : s.Inv) : s.str.wf ∧ s.str.InRange s.cfg.strCap := by
  obtain ⟨-, -, -, -, -, hstr, -⟩ := hI
  exact hstr

theorem State.Inv.pixLegal (hI : s.Inv) : s.pix.wf ∧ s.pix.InRange s.cfg.pixCap := by
  obtain ⟨-, -, -, -, -, -, hpix⟩ := hI
  exact hpix

theorem State.Inv.klen_le (hI : s.Inv) : s.klen ≤ s.cfg.keyCap := by
  obtain ⟨-, ⟨-, -, hklen, -⟩, -⟩ := hI
  exact hklen

theorem State.Inv.mlen_le (hI : s.Inv) : s.mlen ≤ s.cfg.msgCap := by
  obtain ⟨-, ⟨-, -, -, hmlen, -⟩, -⟩ := hI
  exact hmlen

theorem State.Inv.slen_le (hI : s.Inv) : s.slen ≤ s.cfg.strCap := by
  obtain ⟨-, ⟨-, -, -, -, hslen, -⟩, -⟩ := hI
  exact hslen

/-- STR has room for a message and its marker (R10). -/
theorem State.Inv.mlen_add_three_le (hI : s.Inv) : s.mlen + 3 ≤ s.cfg.strCap := by
  have hmlen := hI.mlen_le
  obtain ⟨⟨-, -, hcap, -⟩, -⟩ := hI
  omega

end

/-! ### The invariant after a command -/

/-- Writing within a memory keeps it canonical and within its capacity. -/
theorem Memory.write_legal {w : Nat} {m : Memory w} {cap i : Nat} (h : m.wf ∧ m.InRange cap) (hi : i < cap)
    (v : BitVec w) : (m.write i v).wf ∧ (m.write i v).InRange cap :=
  ⟨Memory.write_wf h.1 i v, Memory.write_inRange h.2 hi v⟩

theorem Memory.writeList_legal {w : Nat} {m : Memory w} {cap i : Nat} (h : m.wf ∧ m.InRange cap)
    (vs : List (BitVec w)) (hi : i + vs.length ≤ cap) : (m.writeList i vs).wf ∧ (m.writeList i vs).InRange cap :=
  ⟨Memory.writeList_wf h.1 i vs, Memory.writeList_inRange h.2 vs hi⟩

section
variable {s t : State}

theorem exec_crypt_zero (s : State) : exec (.crypt 0#1) s = finish (encryptMsg s) := rfl

theorem exec_crypt_one_overflow (h : s.cfg.msgCap < s.slen) :
    exec (.crypt 1#1) s = .next { s with err := .overflow } := if_pos h

theorem exec_crypt_one_decrypt (h : s.slen ≤ s.cfg.msgCap) : exec (.crypt 1#1) s = finish (decryptStr s) :=
  if_neg (Nat.not_lt.mpr h)

theorem encryptMsg_inv (hI : s.Inv) (h : encryptMsg s = .ok t) : t.Inv := by
  have hlegal := encryptMsg_legal h hI.strLegal.1 hI.strLegal.2
  obtain ⟨m, rfl⟩ := encryptMsg_frame h
  exact hI.withStream hlegal (Nat.le_of_add_right_le hI.mlen_add_three_le)

theorem decryptStr_inv (hI : s.Inv) (hmsg : s.slen ≤ s.cfg.msgCap) (h : decryptStr s = .ok t) : t.Inv := by
  have hlegal := decryptStr_legal h hI.msgLegal.1 hI.msgLegal.2
  obtain ⟨m, rfl⟩ := decryptStr_frame h
  exact hI.withMessage hlegal hmsg

/-- ERR is no part of the invariant. -/
theorem finish_inv {e : Except Fault State} (h : finish e = .next t) (he : ∀ u, e = .ok u → u.Inv) : t.Inv := by
  obtain ⟨u, hu, rfl⟩ := finish_eq_next.mp h
  exact he u hu

theorem exec_crypt_inv {d : Bit} (hI : s.Inv) (h : exec (.crypt d) s = .next t) : t.Inv := by
  rcases bit_cases d with rfl | rfl
  · exact finish_inv h fun _ => encryptMsg_inv hI
  · rcases Nat.lt_or_ge s.cfg.msgCap s.slen with hover | hmsg
    · obtain rfl := Host.Outcome.next.inj ((exec_crypt_one_overflow hover).symm.trans h)
      exact hI
    · rw [exec_crypt_one_decrypt hmsg] at h
      exact finish_inv h fun _ => decryptStr_inv hI hmsg

theorem exec_wrbit_inv {v : Bit} (hI : s.Inv) (h : exec (.wrbit v) s = .next t) : t.Inv := by
  obtain rfl | ⟨c, hpos, hcap, -, rfl⟩ := exec_wrbit_next h
  · exact hI
  · exact hI.withGrid (Memory.write_legal hI.pixLegal hcap _) (Nat.lt_of_lt_of_le hpos (gridBits_le_pixCap hI))

/-- A bit appended where fewer than eight are held leaves BV below `2 ^ BVLEN`. -/
theorem exec_rdbit_inv (hI : s.Inv) (h : exec .rdbit s = .next t) : t.Inv := by
  obtain rfl | rfl | ⟨c, hne, hpos, rfl⟩ := exec_rdbit_next h
  · exact hI
  · exact hI
  · have hgrid := hI.withGrid hI.pixLegal (Nat.lt_of_lt_of_le hpos (gridBits_le_pixCap hI))
    obtain ⟨-, -, ⟨hle, hbv⟩, -⟩ := hI
    have hlen : s.bvlen < 8 := Nat.lt_of_le_of_ne hle hne
    refine hgrid.withBits hlen ?_
    have hbit := (readBit c).isLt
    rw [pushBit_toNat s.bv (readBit c) s.bvlen hlen hbv, Nat.pow_succ]
    omega

/-- HIDE embeds in the grid alone, behind the framed ciphertext it has put into STR. -/
theorem exec_hide_inv (hI : s.Inv) (h : exec .hide s = .next t) : t.Inv := by
  obtain ⟨m, ⟨u, hu, rfl⟩, hroom, hend⟩ := exec_hide_next h
  have hlegal := encryptMsg_legal hu hI.strLegal.1 hI.strLegal.2
  have hframed := hI.withStream (Memory.writeList_legal hlegal eom hroom) hroom
  obtain ⟨-, rfl⟩ | ⟨hfits, p, hemb, rfl⟩ := hend
  · exact hframed
  · obtain ⟨vs, -, hbits⟩ := embedBytes_bits hemb
    obtain ⟨-, -, hwf, hrange⟩ := embedBits_pix hbits
    refine hframed.withGrid ⟨hwf hI.pixLegal.1, hrange hI.pixLegal.2⟩ ?_
    have hg := gridBits_le_pixCap hI
    dsimp only
    omega

theorem shown_inv_of_le {x : List Byte} (hI : s.Inv) (hstr : x.length ≤ s.cfg.strCap)
    (hpix : 8 * x.length ≤ s.cfg.pixCap) : (shown s x).Inv :=
  (hI.withStream (Memory.writeList_legal hI.strLegal x ((Nat.zero_add _).trans_le hstr)) hstr).withGrid hI.pixLegal hpix

/-- What SHOW decodes fits STR and the grid. -/
theorem shown_inv {n : Nat} {hit : Bool} {x : List Byte} (hI : s.Inv) (h : showBytes s n [] = .ok (hit, x)) :
    (shown s x).Inv := by
  have hg := gridBits_le_pixCap hI
  have hbytes := gridBytes_le_strCap hI.1 hg
  have hlen := showBytes_length_le h
  exact shown_inv_of_le hI (by omega) (by omega)

/-- A shorter SLEN, as after a marker is stripped. -/
theorem State.Inv.withShorterStream (hI : s.Inv) (k : Nat) : State.Inv { s with slen := s.slen - k } :=
  hI.withStream hI.strLegal ((Nat.sub_le _ _).trans hI.slen_le)

theorem exec_show_inv (hI : s.Inv) (h : exec .showCmd s = .next t) : t.Inv := by
  obtain ⟨hit, x, hbytes, hend⟩ := exec_show_next h
  have hshown := shown_inv hI hbytes
  obtain ⟨-, rfl⟩ | ⟨-, -, -, rfl⟩ | ⟨-, -, hmsg, hdec, m, rfl⟩ := hend
  · exact hshown
  · exact hshown.withShorterStream 3
  · have hinv := decryptStr_inv (s := { shown s x with slen := x.length - 3, det := true })
      (hshown.withShorterStream 3) hmsg hdec
    exact hinv

/-- Every command keeps the invariant. -/
theorem exec_inv {i : Instr} (hI : s.Inv) (h : exec i s = .next t) : t.Inv := by
  cases i with
  | crypt d => exact exec_crypt_inv hI h
  | xorb idx b =>
    obtain ⟨r, rfl⟩ := exec_xorb_next h
    exact hI
  | tobits b =>
    obtain rfl := Host.Outcome.next.inj ((exec_tobits b s).symm.trans h)
    exact hI.withBits le_rfl b.isLt
  | frombits =>
    obtain rfl | rfl | ⟨v, hroom, rfl⟩ := exec_frombits_next h
    · exact hI
    · exact hI
    · exact (hI.withStream (Memory.write_legal hI.strLegal hroom v) hroom).withBits (Nat.zero_le 8) Nat.one_pos
  | frame =>
    obtain rfl | ⟨hroom, rfl⟩ := exec_frame_next h
    · exact hI
    · exact hI.withStream (Memory.writeList_legal hI.strLegal eom hroom) hroom
  | detect =>
    obtain rfl | rfl := exec_detect_next h
    · exact hI.withShorterStream 3
    · exact hI
  | capchk =>
    obtain rfl := exec_capchk_next h
    exact hI
  | wrbit v => exact exec_wrbit_inv hI h
  | rdbit => exact exec_rdbit_inv hI h
  | map =>
    obtain rfl | ⟨r, r2, rfl⟩ := exec_map_next h
    · exact hI
    · exact hI
  | hide => exact exec_hide_inv hI h
  | showCmd => exact exec_show_inv hI h

end

/-! ### What a host operation can do when it goes on (60_exceptions.md R184) -/

section
variable {s t : State}

/-- An illegal word changes ERR alone, and any other runs its command. -/
theorem issue_next {w : Word} (h : issue w s = .next t) :
    (∃ i, exec i s = .next t) ∨ t = { s with err := .illegal } := by
  unfold issue at h
  split at h
  next i hw => exact .inl ⟨i, h⟩
  next => exact .inr (Host.Outcome.next.inj h).symm

theorem setWithin_eq_next {r v max : Nat} {u : State} : setWithin r v max u = .next t ↔ v ≤ max ∧ t = u := by
  unfold setWithin
  split
  next h => simp [h, eq_comm]
  next h => simp [h]

theorem asByte_next {m : MemId} {v : Nat} {k : Byte → State} (h : asByte m v k = .next t) :
    t = k (BitVec.ofNat 8 v) := by
  unfold asByte at h
  split at h
  next => exact (Host.Outcome.next.inj h).symm
  next => simp at h

theorem asWord_next {m : MemId} {v : Nat} {k : Word → State} (h : asWord m v k = .next t) :
    t = k (BitVec.ofNat 32 v) := by
  unfold asWord at h
  split at h
  next => exact (Host.Outcome.next.inj h).symm
  next => simp at h

/-- A RegWrite that completes issues a word or sets one register to a legal value. -/
theorem regWrite_next {r v : Nat} (h : regWrite r v s = .next t) :
    (∃ w, issue w s = .next t) ∨ (v ≤ s.cfg.maxW ∧ t = { s with width := v }) ∨
      (v ≤ s.cfg.maxH ∧ t = { s with height := v }) ∨ (v ≤ s.cfg.keyCap ∧ t = { s with klen := v }) ∨
      (v ≤ s.cfg.msgCap ∧ t = { s with mlen := v }) ∨ (v ≤ s.cfg.strCap ∧ t = { s with slen := v }) ∨
      (v ≤ s.cfg.pixCap ∧ t = { s with pos := v }) := by
  cases hr : RegId.ofIndex r with
  | none => simp [regWrite, hr] at h
  | some reg =>
    cases reg with
    | cmd =>
      simp only [regWrite, hr] at h
      split at h
      next => exact .inl ⟨_, h⟩
      next => simp at h
    | width | height | klen | mlen | slen | pos =>
      simp only [regWrite, hr, setWithin_eq_next] at h
      simp [h]
    | status | bvr | res | res2 => simp [regWrite, hr] at h

/-- A MemWrite that completes writes one element that exists. -/
theorem memWrite_next {m : MemId} {i v : Nat} (h : memWrite m i v s = .next t) :
    (i < s.cfg.keyCap ∧ ∃ b, t = { s with key := s.key.write i b }) ∨
      (i < s.cfg.msgCap ∧ ∃ b, t = { s with msg := s.msg.write i b }) ∨
      (i < s.cfg.strCap ∧ ∃ b, t = { s with str := s.str.write i b }) ∨
      (i < s.cfg.pixCap ∧ ∃ c, t = { s with pix := s.pix.write i c }) := by
  unfold memWrite at h
  split at h
  next hi =>
    cases m with
    | key =>
      obtain rfl := asByte_next h
      exact .inl ⟨hi, _, rfl⟩
    | msg =>
      obtain rfl := asByte_next h
      exact .inr (.inl ⟨hi, _, rfl⟩)
    | str =>
      obtain rfl := asByte_next h
      exact .inr (.inr (.inl ⟨hi, _, rfl⟩))
    | pix =>
      obtain rfl := asWord_next h
      exact .inr (.inr (.inr ⟨hi, _, rfl⟩))
  next => simp at h

/-- A host read that completes changes the host's outbox alone. -/
theorem perform_read_next {op : HostOp} (hop : (∃ r, op = .regRead r) ∨ ∃ m i, op = .memRead m i)
    (h : perform op s = .next t) : ∃ v, t = { s with outbox := v :: s.outbox } := by
  obtain ⟨v, hv⟩ := perform_readsAs hop h
  exact ⟨v, Host.Outcome.next.inj (h.symm.trans (hv s.inbox s.outbox))⟩

/-- A step that goes on is the idle step of an unmarked state or performs the next operation. -/
theorem step_next (h : step s = .next t) :
    (s.faultMark = false ∧ t = s) ∨
      ∃ op rest, s.inbox = op :: rest ∧ perform op { s with inbox := rest } = .next t := by
  unfold step at h
  split at h
  next hin =>
    obtain ⟨hm, h⟩ := unlessMarked_eq_next.mp h
    exact .inl ⟨hm, (Host.Outcome.next.inj h).symm⟩
  next op rest hin => exact .inr ⟨op, rest, hin, h⟩

end

/-! ### The invariant after a step -/

section
variable {s t : State}

theorem regWrite_inv {r v : Nat} (hI : s.Inv) (h : regWrite r v s = .next t) : t.Inv := by
  have ⟨hc, ⟨hw, hh, hk, hmlen, hslen, hpos⟩, hbits, hmems⟩ := hI
  rcases regWrite_next h with ⟨w, h⟩ | ⟨hv, rfl⟩ | ⟨hv, rfl⟩ | ⟨hv, rfl⟩ | ⟨hv, rfl⟩ | ⟨hv, rfl⟩ | ⟨hv, rfl⟩
  · obtain ⟨i, h⟩ | rfl := issue_next h
    · exact exec_inv hI h
    · exact hI
  · exact ⟨hc, ⟨hv, hh, hk, hmlen, hslen, hpos⟩, hbits, hmems⟩
  · exact ⟨hc, ⟨hw, hv, hk, hmlen, hslen, hpos⟩, hbits, hmems⟩
  · exact ⟨hc, ⟨hw, hh, hv, hmlen, hslen, hpos⟩, hbits, hmems⟩
  · exact hI.withMessage hI.msgLegal hv
  · exact hI.withStream hI.strLegal hv
  · exact hI.withGrid hI.pixLegal hv

theorem memWrite_inv {m : MemId} {i v : Nat} (hI : s.Inv) (h : memWrite m i v s = .next t) : t.Inv := by
  obtain ⟨hc, hregs, hbits, hkey, hmsg, hstr, hpix⟩ := hI
  rcases memWrite_next h with ⟨hi, b, rfl⟩ | ⟨hi, b, rfl⟩ | ⟨hi, b, rfl⟩ | ⟨hi, c, rfl⟩
  · exact ⟨hc, hregs, hbits, Memory.write_legal hkey hi b, hmsg, hstr, hpix⟩
  · exact ⟨hc, hregs, hbits, hkey, Memory.write_legal hmsg hi b, hstr, hpix⟩
  · exact ⟨hc, hregs, hbits, hkey, hmsg, Memory.write_legal hstr hi b, hpix⟩
  · exact ⟨hc, hregs, hbits, hkey, hmsg, hstr, Memory.write_legal hpix hi c⟩

/-- Every host operation keeps the invariant. -/
theorem perform_inv {op : HostOp} (hI : s.Inv) (h : perform op s = .next t) : t.Inv := by
  cases op with
  | regWrite r v => exact regWrite_inv hI (unlessMarked_eq_next.mp h).2
  | memWrite m i v => exact memWrite_inv hI (unlessMarked_eq_next.mp h).2
  | regRead r =>
    obtain ⟨v, rfl⟩ := perform_read_next (.inl ⟨r, rfl⟩) h
    exact hI
  | memRead m i =>
    obtain ⟨v, rfl⟩ := perform_read_next (.inr ⟨m, i, rfl⟩) h
    exact hI
  | reset =>
    obtain rfl := Host.Outcome.next.inj h
    exact State.inv_resetOf hI.1

end

/-- Settles O15: the idle step changes nothing, and every operation keeps the invariant, whose terms hold no queue. -/
theorem stepKeepsInvariant : Obligations.StepKeepsInvariant := by
  unfold Obligations.StepKeepsInvariant
  intro s t hI h
  obtain ⟨-, rfl⟩ | ⟨op, rest, -, h⟩ := step_next h
  · exact hI
  · exact perform_inv (s := { s with inbox := rest }) hI h

end Sys2Proof.Machine
end

section
/-! PROOFS. The host ports: register and memory accesses that complete (60_exceptions.md section 5), and the fault mark
(R172, R187). -/

namespace Sys2Proof.Machine

/-! ### RegWrite (10_state.md R22) -/

theorem setWithin_of_le {v max : Nat} (h : v ≤ max) (r : Nat) (t : State) : setWithin r v max t = .next t :=
  if_pos h

/-- Settles O8: the port compares the value with the register's bound and sets that register. -/
theorem hostRegisterWriteSetsOnlyIt : Obligations.HostRegisterWriteSetsOnlyIt := by
  unfold Obligations.HostRegisterWriteSetsOnlyIt
  intro s v rest hm
  refine ⟨fun hin hv => ?_, fun hin hv => ?_, fun hin hv => ?_, fun hin hv => ?_, fun hin hv => ?_,
    fun hin hv => ?_⟩ <;> exact (step_regWrite hm hin).trans (setWithin_of_le hv _ _)

/-! ### RegRead (10_state.md R22, R23) -/

/-- The code of R170 as a number. -/
theorem ErrCode.code_toNat (e : ErrCode) : e.code.toNat = match e with
    | .none => 0 | .capacity => 1 | .noframe => 2 | .bitcount => 3 | .overflow => 4 | .illegal => 5 := by
  cases e <;> rfl

theorem State.statusWord_toNat (s : State) : s.statusWord.toNat = s.err.code.toNat + 8 * s.det.toNat := by
  show (0#28 ++ BitVec.ofBool s.det ++ s.err.code : BitVec (28 + 1 + 3)).toNat = _
  have hcode := s.err.code.isLt
  rw [BitVec.toNat_append, BitVec.toNat_append, ← Nat.shiftLeft_add_eq_or_of_lt hcode, Nat.shiftLeft_eq,
    BitVec.toNat_ofBool]
  simp
  omega

/-- BVLEN of a legal bit sequence fits its field. -/
theorem State.bvrWord_toNat {s : State} (h : s.bvlen ≤ 8) : s.bvrWord.toNat = s.bv.toNat + 256 * s.bvlen := by
  show (0#20 ++ BitVec.ofNat 4 s.bvlen ++ s.bv : BitVec (20 + 4 + 8)).toNat = _
  rw [BitVec.toNat_append, BitVec.toNat_append, ← Nat.shiftLeft_add_eq_or_of_lt s.bv.isLt, Nat.shiftLeft_eq,
    BitVec.toNat_ofNat, BitVec.toNat_ofNat, Nat.mod_eq_of_lt (show s.bvlen < 2 ^ 4 by omega)]
  simp
  omega

/-- R10 and R11: every register but KLEN fits a word. -/
theorem State.Inv.registers_lt {s : State} (hI : s.Inv) :
    s.width < 2 ^ 32 ∧ s.height < 2 ^ 32 ∧ s.mlen < 2 ^ 32 ∧ s.slen < 2 ^ 32 ∧ s.pos < 2 ^ 32 := by
  obtain ⟨⟨hmaxW, hmaxH, hmsg, -, hpix, hstr⟩, ⟨hw, hh, -, hmlen, hslen, hpos⟩, -⟩ := hI
  have hwp : s.cfg.maxW ≤ s.cfg.pixCap := Nat.le_mul_of_pos_right _ hmaxH
  have hhp : s.cfg.maxH ≤ s.cfg.pixCap := Nat.le_mul_of_pos_left _ hmaxW
  omega

/-- A register that has a number answers it, if it fits a word. -/
theorem regRead_registerNumber {s : State} {r n : Nat} (hI : s.Inv) (hk : r = 0x4 → s.klen < 2 ^ 32)
    (h : s.registerNumber r = some n) : ∃ x : Word, x.toNat = n ∧ regRead r s = answer x s := by
  obtain ⟨hw, hh, hmlen, hslen, hpos⟩ := hI.registers_lt
  obtain ⟨-, -, ⟨hbvlen, -⟩, -⟩ := hI
  unfold State.registerNumber at h
  split at h
  case h_1 =>
    refine ⟨s.statusWord, ?_, rfl⟩
    rw [State.statusWord_toNat, ErrCode.code_toNat, Bool.toNat, ← Option.some.inj h]
    cases s.det <;> rfl
  case h_2 => exact ⟨_, (wordOf_toNat hw).trans (Option.some.inj h), rfl⟩
  case h_3 => exact ⟨_, (wordOf_toNat hh).trans (Option.some.inj h), rfl⟩
  case h_4 => exact ⟨_, (wordOf_toNat (hk rfl)).trans (Option.some.inj h), rfl⟩
  case h_5 => exact ⟨_, (wordOf_toNat hmlen).trans (Option.some.inj h), rfl⟩
  case h_6 => exact ⟨_, (wordOf_toNat hslen).trans (Option.some.inj h), rfl⟩
  case h_7 => exact ⟨_, (wordOf_toNat hpos).trans (Option.some.inj h), rfl⟩
  case h_8 => exact ⟨_, (State.bvrWord_toNat hbvlen).trans (Option.some.inj h), rfl⟩
  case h_9 => exact ⟨_, Option.some.inj h, rfl⟩
  case h_10 => exact ⟨_, Option.some.inj h, rfl⟩
  case h_11 => simp at h

/-- Settles O9: the registers are not in the queues, so the read of the state without its operation answers the number
of the state with it. -/
theorem hostRegisterReadAnswersFields : Obligations.HostRegisterReadAnswersFields := by
  unfold Obligations.HostRegisterReadAnswersFields
  intro s r n rest hI hm hin hn hk
  obtain ⟨x, hx, hread⟩ := regRead_registerNumber (s := { s with inbox := rest }) hI hk hn
  exact ⟨x, hx, (step_regRead hm hin).trans hread⟩

/-! ### MemWrite and MemRead (20_memory.md R53) -/

/-- A byte below 2^8 reads as the 32-bit word of its number. -/
theorem zextByte_ofNat {v : Nat} (h : v < 2 ^ 8) : zextByte (BitVec.ofNat 8 v) = BitVec.ofNat 32 v :=
  BitVec.setWidth_ofNat_of_le_of_lt (by decide) h

/-- A MemWrite of a value the element holds, at an index that exists, updates that element and nothing else. -/
theorem memWrite_element {s : State} {m : MemId} {i v : Nat} (hi : i < capacity s.cfg m)
    (hv : v < if m = .pix then 2 ^ 32 else 2 ^ 8) :
    ∃ t, memWrite m i v s = .next t ∧
      (∀ m' j, t.element m' j = if (m', j) = (m, i) then some (BitVec.ofNat 32 v) else s.element m' j) ∧
      t = { s with key := t.key, msg := t.msg, str := t.str, pix := t.pix } := by
  cases m with
  | key | msg | str =>
    refine ⟨_, (if_pos hi).trans (if_pos hv), fun m' j => ?_, rfl⟩
    by_cases hj : j = i
    · cases m' <;> simp [State.element, hj, zextByte_ofNat hv]
    · cases m' <;> simp [State.element, hj, Memory.read_write]
  | pix =>
    refine ⟨_, (if_pos hi).trans (if_pos hv), fun m' j => ?_, rfl⟩
    cases m' <;> simp [State.element, Memory.read_write]

theorem memRead_written {s : State} {m : MemId} {i : Nat} {v : Word} (hi : i < capacity s.cfg m)
    (h : s.element m i = some v) : memRead m i s = .next { s with outbox := v :: s.outbox } := by
  rw [memRead, if_pos hi, h]
  rfl

theorem memRead_unwritten {s : State} {m : MemId} {i : Nat} (hi : i < capacity s.cfg m)
    (h : s.element m i = none) : memRead m i s = .fault (.unwritten m i) := by
  rw [memRead, if_pos hi, h]

/-- The elements are not in the host's queues. -/
theorem State.element_inbox (s : State) (ops : List HostOp) (m : MemId) (i : Nat) :
    State.element { s with inbox := ops } m i = s.element m i := by
  cases m <;> rfl

/-- Settles O10: the write is a function update of the elements, and a read answers the element it names. -/
theorem hostMemoryWriteThenRead : Obligations.HostMemoryWriteThenRead := by
  unfold Obligations.HostMemoryWriteThenRead
  intro s m i v rest hm hi
  refine ⟨fun hv hin => ?_, fun hin hnone => ?_⟩
  · obtain ⟨t, hwrite, helem, ht⟩ := memWrite_element (s := { s with inbox := .memRead m i :: rest }) hi hv
    have hti : t.element m i = some (BitVec.ofNat 32 v) := (helem m i).trans (if_pos rfl)
    refine ⟨t, (step_memWrite hm hin).trans hwrite, hti, fun m' j hne => ?_, ht, ?_⟩
    · rw [helem, if_neg hne, State.element_inbox]
    · have hmark : t.faultMark = false := by rw [ht]; exact hm
      have hinbox : t.inbox = .memRead m i :: rest := by rw [ht]
      have hcap : i < capacity t.cfg m := by rw [ht]; exact hi
      have hout : t.outbox = s.outbox := by rw [ht]
      rw [step_memRead hmark hinbox,
        memRead_written (s := { t with inbox := rest }) hcap ((t.element_inbox rest m i).trans hti), hout]
  · rw [step_memRead hm hin]
    exact memRead_unwritten (s := { s with inbox := rest }) hi ((s.element_inbox rest m i).trans hnone)

/-! ### The fault mark (60_exceptions.md R172, R187) -/

section
variable {s t : State}

/-- A marked state performs only Reset. -/
theorem step_marked (hm : s.faultMark = true) (hin : ∀ rest, s.inbox ≠ .reset :: rest) :
    step s = .fault .faultMarked := by
  unfold step
  split
  next => exact unlessMarked_marked hm _
  next op rest hop =>
    cases op with
    | reset => exact absurd hop (hin rest)
    | regWrite | regRead | memWrite | memRead => exact unlessMarked_marked (s := { s with inbox := rest }) hm _

theorem recorded_faultMark {f : Fault} (h : step s = .fault f) : s.recorded.faultMark = true := by
  rw [State.recorded, h]

theorem regWrite_next_faultMark {r v : Nat} (h : regWrite r v s = .next t) : t.faultMark = s.faultMark := by
  rcases regWrite_next h with ⟨w, h⟩ | ⟨-, rfl⟩ | ⟨-, rfl⟩ | ⟨-, rfl⟩ | ⟨-, rfl⟩ | ⟨-, rfl⟩ | ⟨-, rfl⟩
  · obtain ⟨i, h⟩ | rfl := issue_next h
    · exact exec_next_faultMark h
    · rfl
  all_goals rfl

theorem memWrite_next_faultMark {m : MemId} {i v : Nat} (h : memWrite m i v s = .next t) :
    t.faultMark = s.faultMark := by
  rcases memWrite_next h with ⟨-, b, rfl⟩ | ⟨-, b, rfl⟩ | ⟨-, b, rfl⟩ | ⟨-, c, rfl⟩ <;> rfl

/-- An operation goes on from an unmarked state, whose mark it keeps, or clears the mark. -/
theorem perform_next_faultMark {op : HostOp} (h : perform op s = .next t) : t.faultMark = false := by
  cases op with
  | regWrite r v =>
    obtain ⟨hm, h⟩ := unlessMarked_eq_next.mp h
    exact (regWrite_next_faultMark h).trans hm
  | memWrite m i v =>
    obtain ⟨hm, h⟩ := unlessMarked_eq_next.mp h
    exact (memWrite_next_faultMark h).trans hm
  | regRead r =>
    obtain ⟨hm, -⟩ := unlessMarked_eq_next.mp h
    obtain ⟨v, rfl⟩ := perform_read_next (.inl ⟨r, rfl⟩) h
    exact hm
  | memRead m i =>
    obtain ⟨hm, -⟩ := unlessMarked_eq_next.mp h
    obtain ⟨v, rfl⟩ := perform_read_next (.inr ⟨m, i, rfl⟩) h
    exact hm
  | reset =>
    obtain rfl := Host.Outcome.next.inj h
    rfl

end

/-- Settles O14: only an unmarked state or Reset goes on, and neither ends marked. -/
theorem faultMarkedStateOnlyResets : Obligations.FaultMarkedStateOnlyResets := by
  unfold Obligations.FaultMarkedStateOnlyResets
  refine ⟨fun s f => recorded_faultMark, fun s hm hin => ?_, fun s t h => ?_⟩
  · exact ⟨step_marked hm hin, recorded_faultMark (step_marked hm hin)⟩
  · obtain ⟨hm, rfl⟩ | ⟨op, rest, -, h⟩ := step_next h
    · exact hm
    · exact perform_next_faultMark h

end Sys2Proof.Machine
end

section
/-! PROOFS. The encoding vectors and the assembler (30_encoding.md sections 1, 2 and 4). -/

namespace Sys2Proof

/-- Settles O4: the decoder computes each of the fifteen. -/
theorem vectorWordsDecode : Obligations.VectorWordsDecode := by
  unfold Obligations.VectorWordsDecode
  exact ⟨rfl, rfl, rfl, rfl, rfl, rfl, rfl, rfl, rfl, rfl, rfl, rfl, rfl, rfl, rfl⟩

/-- A number is that of a bit vector exactly when it fits, and then of one only. -/
theorem exists_toNat_eq_iff {w n : Nat} {p : BitVec w → Prop} :
    (∃ v : BitVec w, v.toNat = n ∧ p v) ↔ n < 2 ^ w ∧ p (BitVec.ofNat w n) := by
  constructor
  · rintro ⟨v, rfl, hp⟩
    exact ⟨v.isLt, by simpa using hp⟩
  · rintro ⟨hn, hp⟩
    exact ⟨_, by rw [BitVec.toNat_ofNat, Nat.mod_eq_of_lt hn], hp⟩

end Sys2Proof

namespace Sys2Proof.Machine

/-- An operand that an assembler row accepts below `2 ^ w` is the number of a `w`-bit value up to `max`. -/
theorem operand_accepted_iff {w n max : Nat} (hmax : max + 1 = 2 ^ w) {f : BitVec w → Instr} {i : Instr} :
    n < 2 ^ w ∧ f (BitVec.ofNat w n) = i ↔ n ≤ max ∧ ∃ v : BitVec w, v.toNat = n ∧ i = f v := by
  rw [exists_toNat_eq_iff, ← hmax, Nat.lt_succ_iff, eq_comm (a := i), and_self_left]

/-- A row of one operand accepts the list of just that operand, in its range. -/
theorem assembleRow_one_operand {w n max : Nat} (hmax : max + 1 = 2 ^ w) {f : BitVec w → Instr} {i : Instr} :
    (if n < 2 ^ w then some (f (BitVec.ofNat w n)) else none) = some i ↔
      ∃ d, [n] = [d] ∧ d ≤ max ∧ ∃ v : BitVec w, v.toNat = d ∧ i = f v := by
  rw [Option.ite_none_right_eq_some, Option.some_inj, operand_accepted_iff hmax]
  refine ⟨fun h => ⟨n, rfl, h⟩, ?_⟩
  rintro ⟨d, hd, h⟩
  obtain rfl := List.singleton_inj.mp hd
  exact h

/-- XORB's row takes its index as it is, and a byte. -/
theorem assembleOps_xorb_pair (idx b : Nat) (i : Instr) : assembleOps .xorb [idx, b] = some i ↔
    idx ≤ 1048575 ∧ b ≤ 255 ∧ ∃ x : Byte, x.toNat = b ∧ i = .xorb idx x := by
  show (if idx < 1048575 + 1 ∧ b < 2 ^ 8 then some (Instr.xorb idx (BitVec.ofNat 8 b)) else none) = some i ↔ _
  rw [Option.ite_none_right_eq_some, Option.some_inj, and_assoc, Nat.lt_succ_iff, operand_accepted_iff rfl]

/-- XORB's row is the one that could assemble to an index without a field, and it checks its range. -/
theorem wellFormed_of_assembleOps {m : Mnemonic} {ops : List Nat} {i : Instr} (h : assembleOps m ops = some i) :
    i.WellFormed = true := by
  cases i with
  | xorb idx b =>
    unfold assembleOps at h
    split at h
    case h_2 n k =>
      obtain ⟨⟨hn, -⟩, heq⟩ := Option.ite_none_right_eq_some.mp h
      obtain ⟨rfl, -⟩ := Instr.xorb.inj (Option.some.inj heq)
      exact decide_eq_true hn
    all_goals simp at h
  | crypt | tobits | frombits | frame | detect | capchk | wrbit | rdbit | map | hide | showCmd => rfl

/-- Settles O5: each row accepts one form of operand list, and what it accepts is well-formed. -/
theorem assemblerRefusesOutOfRange : Obligations.AssemblerRefusesOutOfRange := by
  unfold Obligations.AssemblerRefusesOutOfRange
  refine ⟨fun m ops i => ?_, rfl, rfl, fun m ops i h => decode_encode (wellFormed_of_assembleOps h)⟩
  cases m with
  | crypt | wrbit =>
    rcases ops with _ | ⟨n, _ | ⟨k, rest⟩⟩
    · simp [assembleOps]
    · exact assembleRow_one_operand (w := 1) rfl
    · simp [assembleOps]
  | tobits =>
    rcases ops with _ | ⟨n, _ | ⟨k, rest⟩⟩
    · simp [assembleOps]
    · exact assembleRow_one_operand (w := 8) rfl
    · simp [assembleOps]
  | xorb =>
    rcases ops with _ | ⟨n, _ | ⟨k, _ | ⟨j, rest⟩⟩⟩
    · simp [assembleOps]
    · simp [assembleOps]
    · rw [assembleOps_xorb_pair]
      refine ⟨fun h => ⟨n, k, rfl, h⟩, ?_⟩
      rintro ⟨idx, b, hops, h⟩
      cases hops
      exact h
    · simp [assembleOps]
  | frombits | frame | detect | capchk | rdbit | map | hide | showCmd | encrypt | decrypt =>
    cases ops <;> simp [assembleOps, eq_comm]

end Sys2Proof.Machine
end

section
/-! PROOFS. The commands under the invariant: CRYPT (41_cipher.md R101), HIDE (45_orchestration.md R150), how every
command ends (20_memory.md R52, R53), and the empty grid (10_state.md section 7). -/

namespace Sys2Proof.Machine

/-- Settles O36: the marker's first two bytes are 00 and its last is not, so it ends first where it was appended. -/
theorem markerFreeStreamStopsOnlyAtItsEnd : Obligations.MarkerFreeStreamStopsOnlyAtItsEnd := by
  unfold Obligations.MarkerFreeStreamStopsOnlyAtItsEnd
  exact fun x hx => ⟨noMarkerUpTo_frame hx, eomAt_frame x⟩

/-! ### CRYPT (41_cipher.md R101) -/

/-- Ciphering into a memory leaves what stands beyond the data. -/
theorem read_writeList_crypt_beyond (m : Memory 8) (x key : List Byte) {k : Nat} (hk : x.length ≤ k) :
    (m.writeList 0 (crypt x key)).read k = m.read k :=
  Memory.read_writeList_beyond m _ (by rwa [crypt_length])

/-- Settles O21: each direction is its loop, which writes `crypt` of what it reads or faults at its first unwritten
read; CRYPT 1 first compares SLEN with MSG_CAP. -/
theorem cryptCiphersWholeBuffer : Obligations.CryptCiphersWholeBuffer := by
  unfold Obligations.CryptCiphersWholeBuffer
  refine ⟨rfl, rfl, fun s hI => ?_⟩
  have hroom := hI.mlen_add_three_le
  have hslen := hI.slen_le
  have hklen := hI.klen_le
  refine ⟨fun m key hm hkey => ?_, fun x key hmsg hx hkey => ?_, exec_crypt_one_overflow, fun p k h => ?_,
    fun p k hmsg h => ?_⟩
  · refine ⟨_, by rw [exec_crypt_zero, encryptMsg_ok hm hkey hI.mlen_le (by omega) hklen, finish_ok],
      Memory.holds_writeList _ _, fun _ => read_writeList_crypt_beyond _ _ _, rfl⟩
  · refine ⟨_, by rw [exec_crypt_one_decrypt hmsg, decryptStr_ok hx hkey hmsg hslen hklen, finish_ok],
      Memory.holds_writeList _ _, fun _ => read_writeList_crypt_beyond _ _ _, rfl⟩
  · rw [exec_crypt_zero, (encryptMsg_reads hI).1 p k h, finish_error]
  · rw [exec_crypt_one_decrypt hmsg, (decryptStr_reads hI.1 hklen hmsg).1 p k h, finish_error]

/-! ### HIDE (45_orchestration.md R150) -/

/-- Bit `k` of a stream, as the bit of a byte. -/
theorem streamBits_getD {x : List Byte} {k : Nat} (hk : k < 8 * x.length) :
    (streamBits x).getD k 0 = (x.getD (k / 8) 0x00#8).extractLsb' (7 - k % 8) 1 := by
  have hbyte : k / 8 < x.length := by omega
  rw [List.getD_eq_getElem?_getD, streamBits_getElem?, List.getD_eq_getElem?_getD, List.getElem?_eq_getElem hbyte]
  rfl

/-- A framed message in STR is the ciphertext and the marker, and what stood beyond them. -/
theorem framed_str (s : State) (c : List Byte) : (framed s c).str.Holds (frame c) ∧
    ∀ k, c.length + 3 ≤ k → (framed s c).str.read k = s.str.read k :=
  ⟨Memory.holds_writeList _ _, fun _ hk => Memory.read_writeList_beyond _ _ (by rwa [frame_length])⟩

section
variable {s : State} {m key : List Byte}

/-- HIDE with a framed message that fits a loaded grid: each bit in the carrier bit of its own word. -/
theorem exec_hide_embed_pix (hI : s.Inv) (hm : s.HasMessage m) (hkey : s.HasKey m.length key)
    (hroom : (s.mlen + 3) * 8 ≤ s.width * s.height) (hload : s.GridLoaded ((s.mlen + 3) * 8)) :
    ∃ p, exec .hide s = .next { framed s (crypt m key) with pix := p, pos := (s.mlen + 3) * 8, err := .none } ∧
      (∀ k c, k < (s.mlen + 3) * 8 → s.pix.read k = some c → p.read k =
        some (writeBit c (((frame (crypt m key)).getD (k / 8) 0x00#8).extractLsb' (7 - k % 8) 1))) ∧
      ∀ k, (s.mlen + 3) * 8 ≤ k → p.read k = s.pix.read k := by
  obtain ⟨p, hexec, -⟩ := exec_hide_embed hI hm hkey hroom hload
  have hlen : (frame (crypt m key)).length = s.mlen + 3 := by rw [frame_length, crypt_length, hm.1]
  have hbits : (streamBits (frame (crypt m key))).length = (s.mlen + 3) * 8 := by
    rw [streamBits_length, hlen, Nat.mul_comm]
  have hfin := exec_hide_of_message hI hm hkey
  rw [if_pos hroom, hexec, eq_comm] at hfin
  obtain ⟨u, hu, heq⟩ := finish_eq_next.mp hfin
  have hread := (embedBits_pix hu).1
  obtain rfl : p = u.pix := congrArg State.pix heq
  simp only [hbits, Nat.zero_add, Nat.sub_zero, Nat.zero_le, true_and] at hread
  refine ⟨_, hexec, fun k c hk hc => ?_, fun k hk => ?_⟩
  · have hpix : (framed s (crypt m key)).pix.read k = some c := hc
    rw [hread, if_pos hk, hpix, Option.map_some, streamBits_getD (by omega)]
  · rw [hread, if_neg (Nat.not_lt.mpr hk)]
    rfl

/-- What of PIX is unwritten depends on PIX alone. -/
theorem firstUnwritten_pixReads {t : State} (h : t.pix = s.pix) (n i : Nat) :
    t.firstUnwritten (pixReads n i) = s.firstUnwritten (pixReads n i) := by
  simp only [State.firstUnwritten, pixReads, List.find?_map, Function.comp_def, State.element, h]

/-- Stage 4 of HIDE faults at its first unwritten pixel, and completes otherwise. -/
theorem embedBits_framed_reads {bs : List Byte} (hI : s.Inv) (hlen : bs.length = s.mlen)
    (hroom : (s.mlen + 3) * 8 ≤ s.width * s.height) :
    (∀ q k, s.firstUnwritten (pixReads ((s.mlen + 3) * 8) 0) = some (q, k) →
      embedBits (streamBits (frame bs)) { framed s bs with pos := 0 } = .error (.unwritten q k)) ∧
    (s.firstUnwritten (pixReads ((s.mlen + 3) * 8) 0) = none →
      ∃ t, embedBits (streamBits (frame bs)) { framed s bs with pos := 0 } = .ok t) := by
  have hbits : (streamBits (frame bs)).length = (s.mlen + 3) * 8 := by
    rw [streamBits_length, frame_length, hlen, Nat.mul_comm]
  have hreads := embedBits_reads (vs := streamBits (frame bs)) (s := { framed s bs with pos := 0 })
    (by rw [hbits, Nat.zero_add]; exact hroom.trans (gridBits_le_pixCap hI))
  rwa [hbits, firstUnwritten_pixReads (s := s) (t := { framed s bs with pos := 0 }) rfl] at hreads

/-- HIDE faults at its first unwritten read: the message and the key, then the pixels if the framed message fits. -/
theorem exec_hide_unwritten (hI : s.Inv) {p : MemId} {k : Nat}
    (h : s.firstUnwritten (cryptReads .msg s.klen s.mlen 0 ++
      if (s.mlen + 3) * 8 ≤ s.width * s.height then pixReads ((s.mlen + 3) * 8) 0 else []) = some (p, k)) :
    exec .hide s = .fault (.unwritten p k) := by
  obtain ⟨hfault, hok⟩ := exec_hide_cases hI
  rw [firstUnwritten_append] at h
  cases hun : s.firstUnwritten (cryptReads .msg s.klen s.mlen 0) with
  | some q =>
    rw [hun, Option.some_or] at h
    exact hfault p k (hun.trans h)
  | none =>
    obtain ⟨bs, hlen, hbs⟩ := (encryptMsg_reads hI).2 hun
    rw [hun, Option.none_or] at h
    by_cases hroom : (s.mlen + 3) * 8 ≤ s.width * s.height
    · rw [if_pos hroom] at h
      rw [hok bs hlen hbs, if_pos hroom]
      exact finish_eq_fault.mpr ((embedBits_framed_reads hI hlen hroom).1 p k h)
    · rw [if_neg hroom] at h
      exact nomatch h

end

/-- Settles O31: HIDE frames its ciphertext, compares its need with the grid and embeds it, or faults on the way. -/
theorem hideEmbedsFramedCiphertext : Obligations.HideEmbedsFramedCiphertext := by
  unfold Obligations.HideEmbedsFramedCiphertext
  refine ⟨rfl, fun s hI => ⟨fun m key hm hkey => ?_, fun p k => exec_hide_unwritten hI⟩⟩
  obtain ⟨hstr, hbeyond⟩ := framed_str s (crypt m key)
  rw [crypt_length, hm.1] at hbeyond
  refine ⟨fun hroom => ⟨_, exec_hide_capacity hI hm hkey hroom, hstr, hbeyond, rfl⟩, fun hroom hload => ?_⟩
  obtain ⟨p, hexec, hpix, hrest⟩ := exec_hide_embed_pix hI hm hkey hroom hload
  exact ⟨_, hexec, hstr, hbeyond, hpix, hrest, rfl⟩

/-! ### How a command ends (20_memory.md R52, R53) -/

/-- A command from `s` that ends in `r` goes on, or it faults at an element of `s` that exists and that nothing has
written. -/
def EndsSafely (s : State) (r : Result) : Prop :=
  (∃ t, r = .next t) ∨ ∃ m k, r = .fault (.unwritten m k) ∧ k < capacity s.cfg m ∧ s.element m k = none

section
variable {s : State}

theorem EndsSafely.next (t : State) : EndsSafely s (.next t) := .inl ⟨t, rfl⟩

theorem EndsSafely.unwritten {m : MemId} {k : Nat} (hk : k < capacity s.cfg m) (h : s.element m k = none) :
    EndsSafely s (.fault (.unwritten m k)) := .inr ⟨m, k, rfl, hk, h⟩

/-- The first unwritten element of CRYPT's reads exists. -/
theorem cryptReads_unwritten {src q : MemId} {n k : Nat} (hn : n ≤ capacity s.cfg src) (hk : s.klen ≤ s.cfg.keyCap)
    (h : s.firstUnwritten (cryptReads src s.klen n 0) = some (q, k)) :
    k < capacity s.cfg q ∧ s.element q k = none := by
  obtain ⟨hmem, hnone⟩ := firstUnwritten_mem h
  refine ⟨?_, hnone⟩
  rcases cryptReads_mem hmem with ⟨rfl, -, hlt⟩ | ⟨rfl, hlt⟩
  · omega
  · exact hlt.trans_le hk

/-- The first unwritten pixel of a run of reads exists. -/
theorem pixReads_unwritten {q : MemId} {n k : Nat} (hn : n ≤ s.cfg.pixCap)
    (h : s.firstUnwritten (pixReads n 0) = some (q, k)) : k < capacity s.cfg q ∧ s.element q k = none := by
  obtain ⟨hmem, hnone⟩ := firstUnwritten_mem h
  refine ⟨?_, hnone⟩
  obtain ⟨j, hj, heq⟩ := List.mem_map.mp hmem
  obtain ⟨rfl, rfl⟩ := Prod.mk.inj heq
  rw [List.mem_range] at hj
  rw [capacity]
  omega

theorem encryptMsg_endsSafely (hI : s.Inv) :
    (∃ bs : List Byte, bs.length = s.mlen ∧ encryptMsg s = .ok { s with str := s.str.writeList 0 bs, slen := s.mlen }) ∨
      ∃ q k, s.firstUnwritten (cryptReads .msg s.klen s.mlen 0) = some (q, k) ∧ k < capacity s.cfg q ∧
        s.element q k = none := by
  cases hun : s.firstUnwritten (cryptReads .msg s.klen s.mlen 0) with
  | none => exact .inl ((encryptMsg_reads hI).2 hun)
  | some p => exact .inr ⟨p.1, p.2, rfl, cryptReads_unwritten hI.mlen_le hI.klen_le hun⟩

theorem exec_crypt_endsSafely (d : Bit) (hI : s.Inv) : EndsSafely s (exec (.crypt d) s) := by
  have hklen := hI.klen_le
  rcases bit_cases d with rfl | rfl
  · rw [exec_crypt_zero]
    rcases encryptMsg_endsSafely hI with ⟨bs, -, hbs⟩ | ⟨q, k, hun, hk, hnone⟩
    · rw [hbs]
      exact .next _
    · rw [(encryptMsg_reads hI).1 q k hun]
      exact .unwritten hk hnone
  · rcases Nat.lt_or_ge s.cfg.msgCap s.slen with hover | hmsg
    · rw [exec_crypt_one_overflow hover]
      exact .next _
    · obtain ⟨hfault, hok⟩ := decryptStr_reads hI.1 hklen hmsg
      rw [exec_crypt_one_decrypt hmsg]
      cases hun : s.firstUnwritten (cryptReads .str s.klen s.slen 0) with
      | none =>
        obtain ⟨bs, -, hbs⟩ := hok hun
        rw [hbs]
        exact .next _
      | some p =>
        obtain ⟨hk, hnone⟩ := cryptReads_unwritten hI.slen_le hklen hun
        rw [hfault p.1 p.2 hun]
        exact .unwritten hk hnone

theorem exec_xorb_endsSafely (idx : Nat) (b : Byte) (hI : s.Inv) : EndsSafely s (exec (.xorb idx b) s) := by
  by_cases hk : s.klen = 0
  · rw [exec_xorb_of_keyByte_ok (keyByte_of_empty hk idx)]
    exact .next _
  · have hlt := keyIndex_lt_keyCap hI hk idx
    cases hread : s.key.read (idx % s.klen) with
    | some k =>
      rw [exec_xorb_of_keyByte_ok ((keyByte_of_key hk idx).trans (fetch_of_read hlt hread))]
      exact .next _
    | none =>
      rw [exec_xorb_of_keyByte_error ((keyByte_of_key hk idx).trans (fetch_unwritten hlt hread))]
      exact .unwritten hlt (by rw [State.element, hread]; rfl)

theorem exec_frombits_endsSafely (hI : s.Inv) : EndsSafely s (exec .frombits s) := by
  by_cases hlen : s.bvlen = 8
  · rcases Nat.lt_or_eq_of_le hI.slen_le with hroom | hfull
    · rw [exec_frombits_append hlen hroom]
      exact .next _
    · rw [exec_frombits_overflow hlen hfull]
      exact .next _
  · rw [exec_frombits_bitcount hlen]
    exact .next _

theorem exec_frame_endsSafely (s : State) : EndsSafely s (exec .frame s) := by
  rcases Nat.lt_or_ge s.cfg.strCap (s.slen + 3) with hfull | hroom
  · rw [exec_frame_overflow hfull]
    exact .next _
  · rw [exec_frame_append hroom]
    exact .next _

theorem exec_detect_endsSafely (hI : s.Inv) : EndsSafely s (exec .detect s) := by
  cases h : tailIsEom s with
  | ok hit =>
    rw [exec_detect_of_tailIsEom_ok h]
    exact .next _
  | error f =>
    obtain ⟨k, rfl, hk, hnone⟩ := tailIsEom_fault hI.slen_le h
    rw [exec_detect_of_tailIsEom_error h]
    exact .unwritten hk (by rw [State.element, hnone]; rfl)

/-- An unwritten pixel of map(POS) is word POS. -/
theorem carrierWord_unwritten (hI : s.Inv) (hpos : s.pos < s.gridBits) (h : s.pix.read s.carrierWord = none) :
    s.pos < capacity s.cfg .pix ∧ s.element .pix s.pos = none := by
  have hlt := carrierWord_lt_pixCap hI hpos
  rw [carrierWord_eq_pos] at hlt h
  exact ⟨hlt, h⟩

theorem exec_wrbit_endsSafely (v : Bit) (hI : s.Inv) : EndsSafely s (exec (.wrbit v) s) := by
  rcases Nat.lt_or_ge s.pos s.gridBits with hpos | hend
  · cases hread : s.pix.read s.carrierWord with
    | some c =>
      rw [exec_wrbit_write hI hpos hread]
      exact .next _
    | none =>
      obtain ⟨hlt, hnone⟩ := carrierWord_unwritten hI hpos hread
      rw [exec_wrbit_unwritten hI hpos hread]
      exact .unwritten hlt hnone
  · rw [exec_wrbit_capacity hend]
    exact .next _

theorem exec_rdbit_endsSafely (hI : s.Inv) : EndsSafely s (exec .rdbit s) := by
  by_cases hlen : s.bvlen = 8
  · rw [exec_rdbit_bitcount hlen]
    exact .next _
  · rcases Nat.lt_or_ge s.pos s.gridBits with hpos | hend
    · cases hread : s.pix.read s.carrierWord with
      | some c =>
        rw [exec_rdbit_append hI hlen hpos hread]
        exact .next _
      | none =>
        obtain ⟨hlt, hnone⟩ := carrierWord_unwritten hI hpos hread
        rw [exec_rdbit_unwritten hI hlen hpos hread]
        exact .unwritten hlt hnone
    · rw [exec_rdbit_capacity hlen hend]
      exact .next _

theorem exec_map_endsSafely (s : State) : EndsSafely s (exec .map s) := by
  rcases Nat.lt_or_ge s.pos s.gridBits with hpos | hend
  · rw [exec_map_position hpos]
    exact .next _
  · rw [exec_map_capacity hend]
    exact .next _

theorem exec_hide_endsSafely (hI : s.Inv) : EndsSafely s (exec .hide s) := by
  obtain ⟨hfault, hok⟩ := exec_hide_cases hI
  rcases encryptMsg_endsSafely hI with ⟨bs, hlen, hbs⟩ | ⟨q, k, hun, hk, hnone⟩
  · rw [hok bs hlen hbs]
    by_cases hroom : (s.mlen + 3) * 8 ≤ s.width * s.height
    · rw [if_pos hroom]
      obtain ⟨hfault, hok⟩ := embedBits_framed_reads hI hlen hroom
      cases hun : s.firstUnwritten (pixReads ((s.mlen + 3) * 8) 0) with
      | none =>
        obtain ⟨t, ht⟩ := hok hun
        exact .inl ⟨_, finish_eq_next.mpr ⟨t, ht, rfl⟩⟩
      | some p =>
        obtain ⟨hk, hnone⟩ := pixReads_unwritten (hroom.trans (gridBits_le_pixCap hI)) hun
        exact .inr ⟨p.1, p.2, finish_eq_fault.mpr (hfault p.1 p.2 hun), hk, hnone⟩
    · rw [if_neg hroom]
      exact .next _
  · rw [hfault q k hun]
    exact .unwritten hk hnone

/-- What SHOW has stripped is all in STR, so the one thing its decryption can miss is a key byte. -/
theorem found_unwritten {x : List Byte} {q : MemId} {k : Nat} (hklen : s.klen ≤ s.cfg.keyCap)
    (hx : x.length ≤ s.cfg.strCap)
    (h : (found s x).firstUnwritten (cryptReads .str s.klen x.length 0) = some (q, k)) :
    k < capacity s.cfg q ∧ s.element q k = none := by
  obtain ⟨hk, hnone⟩ := cryptReads_unwritten (s := found s x) hx hklen h
  obtain ⟨hmem, -⟩ := firstUnwritten_mem h
  rcases cryptReads_mem hmem with ⟨rfl, -, hlt⟩ | ⟨rfl, -⟩
  · obtain ⟨-, hheld⟩ := found_hasStream s x
    rw [State.element, hheld k (by omega)] at hnone
    exact nomatch hnone
  · exact ⟨hk, hnone⟩

theorem exec_show_endsSafely (hI : s.Inv) : EndsSafely s (exec .showCmd s) := by
  have hg := gridBits_le_pixCap hI
  have hklen := hI.klen_le
  have hstr := gridBytes_le_strCap hI.1 hg
  cases h : showBytes s s.showBound [] with
  | error f =>
    obtain ⟨k, rfl, hk, hnone⟩ := showBytes_error hg hstr h
    rw [exec_show_of_fault h]
    exact .unwritten hk hnone
  | ok r =>
    obtain ⟨hit, y⟩ := r
    cases hit with
    | false =>
      rw [exec_show_of_noMarker h]
      exact .next _
    | true =>
      obtain ⟨x, rfl⟩ : ∃ x, frame x = y := ⟨_, (frame_take_of_eomAt ((showBytes_cases h).2 rfl)).2⟩
      have hlen := showBytes_length_le h
      rw [frame_length] at hlen
      rw [exec_show_of_marker h]
      rcases Nat.lt_or_ge s.cfg.msgCap x.length with hover | hmsg
      · rw [if_pos hover]
        exact .next _
      · rw [if_neg (Nat.not_lt.mpr hmsg)]
        obtain ⟨hfault, hok⟩ := decryptStr_reads (s := found s x) hI.1 hklen hmsg
        cases hun : (found s x).firstUnwritten (cryptReads .str s.klen x.length 0) with
        | none =>
          obtain ⟨bs, -, hbs⟩ := hok hun
          exact .inl ⟨_, finish_eq_next.mpr ⟨_, hbs, rfl⟩⟩
        | some p =>
          obtain ⟨hk, hnone⟩ := found_unwritten hklen (by omega) hun
          exact .inr ⟨p.1, p.2, finish_eq_fault.mpr (hfault p.1 p.2 hun), hk, hnone⟩

/-- From a state that meets the invariant, every command ends safely. -/
theorem exec_endsSafely (i : Instr) (hI : s.Inv) : EndsSafely s (exec i s) := by
  cases i with
  | crypt d => exact exec_crypt_endsSafely d hI
  | xorb idx b => exact exec_xorb_endsSafely idx b hI
  | tobits b => exact .inl ⟨_, exec_tobits b s⟩
  | frombits => exact exec_frombits_endsSafely hI
  | frame => exact exec_frame_endsSafely s
  | detect => exact exec_detect_endsSafely hI
  | capchk => exact .inl ⟨_, exec_capchk s⟩
  | wrbit v => exact exec_wrbit_endsSafely v hI
  | rdbit => exact exec_rdbit_endsSafely hI
  | map => exact exec_map_endsSafely s
  | hide => exact exec_hide_endsSafely hI
  | showCmd => exact exec_show_endsSafely hI

end

/-- Settles O17: a safe end is no refusal, and its fault is that of an element nothing has written. -/
theorem commandsFaultOnlyOnUnwritten : Obligations.CommandsFaultOnlyOnUnwritten := by
  unfold Obligations.CommandsFaultOnlyOnUnwritten
  intro i s hI
  rcases exec_endsSafely i hI with ⟨t, hend⟩ | ⟨m, k, hend, hk, hnone⟩
  · rw [hend]
    exact ⟨nofun, nofun⟩
  · rw [hend]
    exact ⟨fun f hf => ⟨m, k, (Host.Outcome.fault.inj hf).symm, hk, hnone⟩, nofun⟩

/-! ### The empty grid (10_state.md section 7) -/

/-- SHOW on a grid without pixels decodes nothing. -/
theorem exec_show_empty {s : State} (hI : s.Inv) (hgrid : s.gridBits = 0) :
    exec .showCmd s = .next { s with slen := 0, pos := 0, det := false, err := .noframe } := by
  have hnone : MarkerFree [] := by decide
  exact exec_show_of_noMarker (showBytes_noMarker hI.1 (gridBits_le_pixCap hI) (by rw [hgrid]; rfl)
    (fun _ hk => absurd hk (Nat.not_lt_zero _)) hnone)

/-- Settles O47: HIDE's need is at least 24 bits, every POS is at the end of the grid, and SHOW finds no byte. -/
theorem emptyGridHasNoCapacity : Obligations.EmptyGridHasNoCapacity := by
  unfold Obligations.EmptyGridHasNoCapacity
  intro s hI hgrid
  have hend : s.gridBits ≤ s.pos := hgrid.trans_le (Nat.zero_le _)
  refine ⟨fun m key hm hkey => ⟨_, exec_hide_capacity hI hm hkey (by omega), rfl, rfl, rfl⟩,
    exec_wrbit_capacity hend, fun hlen => exec_rdbit_capacity hlen hend, exec_map_capacity hend,
    ⟨_, exec_capchk s, ?_⟩, exec_show_empty hI hgrid⟩
  by_cases hslen : s.slen = 0 <;> simp [hgrid, hslen]

end Sys2Proof.Machine
end

section
/-! PROOFS. Sequences of primitive commands: eight RDBITs (44_pixelchannel.md R142), and HIDE and SHOW as their
primitive sequences (45_orchestration.md R154). -/

namespace Sys2Proof.Machine

/-! ### Running commands one after the other -/

theorem runCommands_cons_of_next {i : Instr} {s t : State} (h : exec i s = .next t) (rest : List Instr) :
    runCommands (i :: rest) s = runCommands rest t := by
  rw [runCommands, h]

theorem runCommands_append_of_next {a : List Instr} {s t : State} (h : runCommands a s = .next t) (b : List Instr) :
    runCommands (a ++ b) s = runCommands b t := by
  rw [runCommands_append, h]

theorem runCommands_singleton (i : Instr) (s : State) : runCommands [i] s = exec i s := by
  unfold runCommands
  cases exec i s <;> rfl

/-! ### Eight RDBITs (44_pixelchannel.md R142) -/

/-- The state after RDBIT has read the carrier bit `v`. -/
def State.pushBit (s : State) (v : Bit) : State :=
  { s with bv := (s.bv <<< 1) ||| v.zeroExtend 8, bvlen := s.bvlen + 1, res := zextBit v, pos := s.pos + 1,
           err := .none }

@[simp] theorem State.pushBit_bvlen (s : State) (v : Bit) : (s.pushBit v).bvlen = s.bvlen + 1 := rfl
@[simp] theorem State.pushBit_pos (s : State) (v : Bit) : (s.pushBit v).pos = s.pos + 1 := rfl

/-- The carrier bits of PIX from word `i` on are `vs`. -/
def CarriesBits (p : Memory 32) (i : Nat) (vs : List Bit) : Prop :=
  ∀ (j : Nat) (h : j < vs.length), (p.read (i + j)).map readBit = some vs[j]

theorem CarriesBits.tail {p : Memory 32} {i : Nat} {v : Bit} {vs : List Bit} (h : CarriesBits p i (v :: vs)) :
    CarriesBits p (i + 1) vs := fun j hj => by
  rw [Nat.add_assoc, Nat.add_comm 1]
  exact h (j + 1) (Nat.succ_lt_succ hj)

section
variable {s : State} {vs : List Bit} {b : Byte}

theorem exec_rdbit_of_carrierBit {v : Bit} (hI : s.Inv) (hlen : s.bvlen ≠ 8) (hpos : s.pos < s.gridBits)
    (hbit : (s.pix.read s.pos).map readBit = some v) : exec .rdbit s = .next (s.pushBit v) := by
  obtain ⟨c, hc, rfl⟩ := Option.map_eq_some_iff.mp hbit
  exact exec_rdbit_append hI hlen hpos ((carrierWord_eq_pos s).symm ▸ hc)

/-- RDBITs push the carrier bits one after the other, as long as BV and the grid have room. -/
theorem runCommands_rdbits (hI : s.Inv) (hlen : s.bvlen + vs.length ≤ 8) (hpos : s.pos + vs.length ≤ s.gridBits)
    (hbits : CarriesBits s.pix s.pos vs) :
    runCommands (List.replicate vs.length .rdbit) s = .next (vs.foldl State.pushBit s) := by
  induction vs generalizing s with
  | nil => rfl
  | cons v vs ih =>
    rw [List.length_cons] at hlen hpos
    have hexec := exec_rdbit_of_carrierBit hI (by omega) (by omega) (hbits 0 (Nat.zero_lt_succ _))
    rw [List.length_cons, List.replicate_succ, runCommands_cons_of_next hexec]
    have hlen' : (s.pushBit v).bvlen + vs.length ≤ 8 := by rw [State.pushBit_bvlen]; omega
    have hpos' : (s.pushBit v).pos + vs.length ≤ s.gridBits := by rw [State.pushBit_pos]; omega
    exact ih (exec_inv hI hexec) hlen' hpos' hbits.tail

theorem bitSeq_foldl_pushBit (hlen : s.bvlen + vs.length ≤ 8) :
    (vs.foldl State.pushBit s).bitSeq = s.bitSeq ++ vs := by
  induction vs generalizing s with
  | nil => simp
  | cons v vs ih =>
    rw [List.length_cons] at hlen
    have hlen' : (s.pushBit v).bvlen + vs.length ≤ 8 := by rw [State.pushBit_bvlen]; omega
    rw [List.foldl_cons, ih hlen', bitSeq_pushBit (s := s) (t := s.pushBit v) (by omega) rfl rfl, List.append_assoc]
    rfl

/-- The bits of a byte pushed into an empty sequence are that byte in BV. -/
theorem foldl_pushBit_toBits (hlen : s.bvlen = 0) (b : Byte) : (toBits b).foldl State.pushBit s =
    { s with bv := b, bvlen := 8, res := zextBit (b.extractLsb' 0 1), pos := s.pos + 8, err := .none } := by
  have hframe : (toBits b).foldl State.pushBit s =
      { s with bv := ((toBits b).foldl State.pushBit s).bv, bvlen := s.bvlen + 8,
               res := zextBit (b.extractLsb' 0 1), pos := s.pos + 8, err := .none } := rfl
  have hseq := bitSeq_foldl_pushBit (s := s) (vs := toBits b) (by rw [hlen, toBits_length])
  have hempty : s.bitSeq = [] := by rw [State.bitSeq, hlen]; rfl
  have hfull : ((toBits b).foldl State.pushBit s).bvlen = 8 := by rw [hframe, hlen]
  rw [hempty, List.nil_append, bitSeq_of_bvlen_eq_eight hfull] at hseq
  rw [hframe, toBits_injective hseq, hlen]

/-- Eight RDBITs from an empty sequence assemble the byte whose bits the carrier bits are. -/
theorem runCommands_eight_rdbits (hI : s.Inv) (hlen : s.bvlen = 0) (hpos : s.pos + 8 ≤ s.gridBits)
    (hbits : CarriesBits s.pix s.pos (toBits b)) : runCommands (List.replicate 8 .rdbit) s =
      .next { s with bv := b, bvlen := 8, res := zextBit (b.extractLsb' 0 1), pos := s.pos + 8, err := .none } := by
  rw [← foldl_pushBit_toBits hlen b]
  exact runCommands_rdbits (vs := toBits b) hI (by rw [hlen, toBits_length]) hpos hbits

end

/-- The last bit of a byte as a word. -/
theorem zextBit_extractLsb'_zero (b : Byte) : zextBit (b.extractLsb' 0 1) = (b &&& 1#8).zeroExtend 32 := by
  apply BitVec.eq_of_toNat_eq
  rw [zextBit, BitVec.toNat_setWidth, BitVec.extractLsb'_toNat, BitVec.toNat_setWidth, BitVec.toNat_and,
    show (1#8).toNat = 1 from rfl, Nat.and_one_is_mod]
  rfl

/-- Settles O46: eight RDBITs fill the bit sequence with the byte, and RDBIT on a full one only raises BITCOUNT. -/
theorem eightRdbitsAssembleByte : Obligations.EightRdbitsAssembleByte := by
  unfold Obligations.EightRdbitsAssembleByte
  intro s b hI hlen hpos hbits
  have hcarried : CarriesBits s.pix s.pos (toBits b) := fun j hj => by
    rw [toBits_length] at hj
    rw [hbits j hj, ← List.getElem?_eq_getElem, toBits_getElem? b hj, extractLsb'_one_eq_ofBool]
  have hrun := runCommands_eight_rdbits hI hlen hpos hcarried
  rw [zextBit_extractLsb'_zero] at hrun
  exact ⟨_, hrun, rfl, exec_rdbit_bitcount rfl⟩

/-! ### HIDE as its primitive sequence (45_orchestration.md R154) -/

section
variable {s u : State} {vs : List Bit}

/-- WRBIT where word POS can be read. -/
theorem exec_wrbit_of_readPix {c : Word} (hpos : s.pos < s.gridBits) (hread : s.readPix s.pos = .ok c) (v : Bit) :
    exec (.wrbit v) s = .next { s with pix := s.pix.write s.pos (writeBit c v), res := writeBit c v, res2 := c,
                                       pos := s.pos + 1, err := .none } := by
  rw [exec, execWrbit, if_neg (Nat.not_le.mpr hpos), carrierWord_eq_pos, hread, andThen_ok,
    writePix_of_lt (fetch_eq_ok.mp hread).1, andThen_ok, done_eq]

/-- One WRBIT per bit does what stage 4 of HIDE does, but for RES and RES2. -/
theorem runCommands_wrbits (hpos : s.pos + vs.length ≤ s.gridBits) (h : embedBits vs s = .ok u) (r r2 : Word) :
    ∃ r' r2', runCommands (vs.map .wrbit) { s with res := r, res2 := r2, err := .none } =
      .next { u with res := r', res2 := r2', err := .none } := by
  induction vs generalizing s r r2 with
  | nil =>
    obtain rfl := Except.ok.inj h
    exact ⟨r, r2, rfl⟩
  | cons v vs ih =>
    rw [List.length_cons] at hpos
    simp only [embedBits, bind_eq_ok] at h
    obtain ⟨c, hread, t, hwrite, h⟩ := h
    obtain ⟨-, rfl⟩ := writePix_eq_ok.mp hwrite
    have hexec := exec_wrbit_of_readPix (s := { s with res := r, res2 := r2, err := .none })
      (Nat.lt_of_lt_of_le (Nat.lt_add_of_pos_right (Nat.succ_pos _)) hpos) hread v
    rw [List.map_cons, runCommands_cons_of_next hexec]
    exact ih (s := { s with pix := s.pix.write s.pos (writeBit c v), pos := s.pos + 1 })
      (by rw [Nat.add_assoc, Nat.add_comm 1]; exact hpos) h (writeBit c v) c

/-- CRYPT 0, FRAME and CAPCHK frame the ciphertext, if it fits the grid. -/
theorem runCommands_crypt_frame_capchk {m key : List Byte} (hI : s.Inv) (hm : s.HasMessage m)
    (hkey : s.HasKey m.length key) (hroom : (s.mlen + 3) * 8 ≤ s.width * s.height) :
    ∃ r r2, runCommands [.crypt 0#1, .frame, .capchk] s =
      .next { framed s (crypt m key) with res := r, res2 := r2, err := .none } := by
  have hmlen3 := hI.mlen_add_three_le
  have hmlen := hI.mlen_le
  have hlen : 0 + (crypt m key).length = s.mlen := by rw [Nat.zero_add, crypt_length, hm.1]
  have hcrypt := exec_crypt_zero s
  rw [encryptMsg_ok hm hkey hmlen (by omega) hI.klen_le, finish_ok] at hcrypt
  rw [runCommands_cons_of_next hcrypt, runCommands_cons_of_next (exec_frame_append hmlen3), runCommands_singleton,
    exec_capchk]
  refine ⟨wordOf ((s.mlen + 3) * 8), wordOf s.gridBits, ?_⟩
  dsimp only
  rw [if_pos hroom, framed, frame, Memory.writeList_append, hlen]
  rfl

end

/-- Settles O44: the first three commands stop where HIDE begins to embed, and the WRBITs embed as HIDE does. -/
theorem hideIsItsPrimitiveSequence : Obligations.HideIsItsPrimitiveSequence := by
  unfold Obligations.HideIsItsPrimitiveSequence
  intro s t m key hI hm hkey hpos hexec herr
  rw [exec_hide_of_message hI hm hkey] at hexec
  split at hexec
  next hroom =>
    obtain ⟨u, hu, rfl⟩ := finish_eq_next.mp hexec
    obtain ⟨r, r2, hprefix⟩ := runCommands_crypt_frame_capchk hI hm hkey hroom
    have hstart : framed s (crypt m key) = { framed s (crypt m key) with pos := 0 } := by simp only [framed, hpos]
    have hfits : 0 + (streamBits (frame (crypt m key))).length ≤ s.gridBits := by
      rw [Nat.zero_add, streamBits_length, frame_length, crypt_length, hm.1, Nat.mul_comm]
      exact hroom
    obtain ⟨r', r2', hbits⟩ := runCommands_wrbits hfits hu r r2
    rw [runCommands_append_of_next hprefix, hstart]
    exact ⟨_, hbits, rfl⟩
  next =>
    obtain rfl := Host.Outcome.next.inj hexec
    exact nomatch herr

/-! ### SHOW as its primitive sequence (45_orchestration.md R154) -/

/-- Of the state, deciphering reads KEY, KLEN and STR alone. -/
theorem cipherBytes_readStr_congr {s t : State} (hcfg : t.cfg = s.cfg) (hklen : t.klen = s.klen) (hkey : t.key = s.key)
    (hstr : t.str = s.str) (n i : Nat) : cipherBytes State.readStr t n i = cipherBytes State.readStr s n i := by
  induction n generalizing i with
  | zero => rfl
  | succ n ih => simp only [cipherBytes, State.readStr, State.keyByte, State.readKey, hcfg, hklen, hkey, hstr, ih]

/-- CRYPT 1 as its bytes, computed first. -/
theorem decryptStr_eq {s : State} (h : s.slen ≤ s.cfg.msgCap) : decryptStr s =
    (cipherBytes State.readStr s s.slen 0 >>= fun bs =>
      .ok { s with msg := s.msg.writeList 0 bs, mlen := s.slen }) := by
  rw [decryptStr, decryptPath.cryptLoop_eq (by rw [Nat.zero_add]; exact h)]
  cases cipherBytes State.readStr s s.slen 0 <;> rfl

theorem decryptStr_setRes {s t : State} (hmsg : s.slen ≤ s.cfg.msgCap) (h : decryptStr s = .ok t) (r : Word)
    (e : ErrCode) : decryptStr { s with res := r, err := e } = .ok { t with res := r, err := e } := by
  rw [decryptStr_eq hmsg] at h
  obtain ⟨bs, hbs, h⟩ := bind_eq_ok.mp h
  obtain rfl := Except.ok.inj h
  have hcongr := cipherBytes_readStr_congr (s := s) (t := { s with res := r, err := e }) rfl rfl rfl rfl s.slen 0
  rw [decryptStr_eq (s := { s with res := r, err := e }) hmsg, hcongr, hbs]
  rfl

/-- The carrier bits of pixels that can be read. -/
theorem carriesBits_of_pixWords {s : State} {n i : Nat} {cs : List Word} (h : pixWords s n i = .ok cs) :
    CarriesBits s.pix i (cs.map readBit) := by
  obtain ⟨hlen, hread⟩ := pixWords_eq_ok.mp h
  intro j hj
  rw [List.length_map] at hj
  rw [(fetch_eq_ok.mp (hread j (hlen ▸ hj))).2, List.getElem_map, List.getD_eq_getElem?_getD,
    List.getElem?_eq_getElem hj]
  rfl

/-- An empty bit sequence has no bit in BV. -/
theorem State.Inv.bv_eq_zero {s : State} (hI : s.Inv) (hlen : s.bvlen = 0) : s.bv = 0x00#8 := by
  obtain ⟨-, -, ⟨-, hbv⟩, -⟩ := hI
  rw [hlen] at hbv
  exact BitVec.eq_of_toNat_eq (Nat.lt_one_iff.mp hbv)

/-- One pass of the primitive loop appends the byte the carrier bits spell and then tests for the marker. -/
theorem runCommands_decodePass {s : State} {b : Byte} (hI : s.Inv) (hlen : s.bvlen = 0) (hstr : s.slen < s.cfg.strCap)
    (hpos : s.pos + 8 ≤ s.gridBits) (hbits : CarriesBits s.pix s.pos (toBits b)) : runCommands decodePass s =
      exec .detect { s with str := s.str.write s.slen b, slen := s.slen + 1, pos := s.pos + 8, bv := 0x00#8, bvlen := 0,
                            res := zextByte b, err := .none } := by
  have hfrombits := exec_frombits_append (s := { s with bv := b, bvlen := 8, res := zextBit (b.extractLsb' 0 1),
                                                        pos := s.pos + 8, err := .none }) rfl hstr
  rw [decodePass, runCommands_append_of_next (runCommands_eight_rdbits hI hlen hpos hbits),
    runCommands_cons_of_next hfrombits, runCommands_singleton]

/-- The state of SHOW when it has decoded `x`, but for what the primitive loop also writes: DET, RES and ERR. -/
def shownWith (s : State) (x : List Byte) (d : Bool) (r : Word) (e : ErrCode) : State :=
  { shown s x with det := d, res := r, err := e }

section
variable {s : State} {y : List Byte}

/-- Before the first pass. -/
theorem shownWith_nil (hslen : s.slen = 0) (hpos : s.pos = 0) : shownWith s [] s.det s.res s.err = s := by
  obtain ⟨⟩ := s
  subst hslen hpos
  rfl

/-- A pass after `x` has been decoded. -/
theorem runCommands_decodePass_shownWith {x : List Byte} {cs : List Word} (hI : s.Inv) (hlen : s.bvlen = 0)
    (hgrid : 8 * x.length + 8 ≤ s.gridBits) (hstr : x.length < s.cfg.strCap)
    (hcs : pixWords s 8 (8 * x.length) = .ok cs) (d : Bool) (r : Word) (e : ErrCode) :
    runCommands decodePass (shownWith s x d r e) = exec .detect
      (shownWith s (x ++ [fromBits (cs.map readBit)]) d (zextByte (fromBits (cs.map readBit))) .none) := by
  have hg := gridBits_le_pixCap hI
  have hbits : (cs.map readBit).length = 8 := by rw [List.length_map, (pixWords_eq_ok.mp hcs).1]
  have hcarried := carriesBits_of_pixWords hcs
  rw [← toBits_fromBits hbits] at hcarried
  have hinv : (shown s x).Inv := shown_inv_of_le hI hstr.le (by omega)
  rw [runCommands_decodePass (s := shownWith s x d r e) hinv hlen hstr hgrid hcarried]
  simp [shownWith, shown, Memory.writeList_append, Memory.writeList, Nat.mul_add, hlen, hI.bv_eq_zero hlen]

/-- The marker test of a pass. -/
theorem exec_detect_shownWith (hstr : y.length ≤ s.cfg.strCap) (d : Bool) (r : Word) :
    exec .detect (shownWith s y d r .none) = .next (if eomAt y then
      { shownWith s y true r .none with slen := y.length - 3 } else shownWith s y false r .none) :=
  exec_detect_of_tailIsEom_ok (tailIsEom_ok (s := shownWith s y d r .none) ⟨rfl, Memory.holds_writeList _ _⟩ hstr)

variable (hI : s.Inv) (hlen : s.bvlen = 0) (h : showBytes s s.showBound [] = .ok (true, y))
include hI hlen h

/-- The pass that decodes byte `n` of what SHOW decodes. -/
theorem runCommands_decodePass_take {n : Nat} (hn : n < y.length) (d : Bool) (r : Word) (e : ErrCode) :
    ∃ r', runCommands decodePass (shownWith s (y.take n) d r e) = .next (if eomAt (y.take (n + 1)) then
      { shownWith s (y.take (n + 1)) true r' .none with slen := n + 1 - 3 }
      else shownWith s (y.take (n + 1)) false r' .none) := by
  obtain ⟨-, -, -, -, -, hreads⟩ := showBytes_reads h
  obtain ⟨hgrid, hstr, cs, hcs, hbyte⟩ := hreads n (Nat.zero_le n) hn
  have htake : (y.take n).length = n := by rw [List.length_take]; omega
  have hnext : y.take n ++ [fromBits (cs.map readBit)] = y.take (n + 1) := by
    rw [List.take_add_one, hbyte]
    rfl
  have hlen' : (y.take (n + 1)).length = n + 1 := by rw [List.length_take]; omega
  have hpass := runCommands_decodePass_shownWith hI hlen (x := y.take n) (cs := cs) (by rwa [htake]) (by rwa [htake])
    (by rwa [htake]) d r e
  rw [hnext, exec_detect_shownWith (by omega), hlen'] at hpass
  exact ⟨_, hpass⟩

/-- Fewer passes than SHOW decodes bytes decode as many bytes and find no marker. -/
theorem runCommands_decodePasses (hslen : s.slen = 0) (hpos : s.pos = 0) {n : Nat} (hn : n < y.length) :
    ∃ d r e, runCommands (List.replicate n decodePass).flatten s = .next (shownWith s (y.take n) d r e) ∧
      (1 ≤ n → d = false) := by
  induction n with
  | zero => exact ⟨_, _, _, congrArg _ (shownWith_nil hslen hpos).symm, fun h => absurd h (by decide)⟩
  | succ n ih =>
    obtain ⟨d, r, e, hrun, -⟩ := ih (by omega)
    obtain ⟨r', hpass⟩ := runCommands_decodePass_take hI hlen h (n := n) (by omega) d r e
    obtain ⟨-, -, -, -, hno, -⟩ := showBytes_reads h
    rw [hno (n + 1) (Nat.succ_pos n) hn, if_neg Bool.false_ne_true] at hpass
    refine ⟨false, r', .none, ?_, fun _ => rfl⟩
    rw [List.replicate_succ', List.flatten_concat, runCommands_append_of_next hrun, hpass]

/-- As many passes as SHOW decodes bytes find the marker and strip it. -/
theorem runCommands_all_decodePasses (hslen : s.slen = 0) (hpos : s.pos = 0) :
    ∃ r, runCommands (List.replicate y.length decodePass).flatten s =
      .next { shownWith s y true r .none with slen := y.length - 3 } := by
  obtain ⟨-, -, -, heom, -⟩ := showBytes_reads h
  obtain ⟨n, hn⟩ : ∃ n, y.length = n + 1 := ⟨y.length - 1, by have := (frame_take_of_eomAt heom).1; omega⟩
  obtain ⟨d, r, e, hrun, -⟩ := runCommands_decodePasses hI hlen h hslen hpos (n := n) (by omega)
  obtain ⟨r', hpass⟩ := runCommands_decodePass_take hI hlen h (n := n) (by omega) d r e
  rw [← hn, List.take_length, if_pos heom] at hpass
  exact ⟨r', by rw [hn, List.replicate_succ', List.flatten_concat, runCommands_append_of_next hrun, hpass, hn]⟩

end

/-- Settles O45: the passes decode what SHOW's loop decodes, and CRYPT 1 then deciphers what SHOW deciphers. -/
theorem showIsItsPrimitiveSequence : Obligations.ShowIsItsPrimitiveSequence := by
  unfold Obligations.ShowIsItsPrimitiveSequence
  intro s t hI hslen hpos hlen hexec herr
  obtain ⟨hit, y, hbytes, ⟨-, rfl⟩ | ⟨-, -, -, rfl⟩ | ⟨rfl, heom, hmsg, hdec, m, ht⟩⟩ := exec_show_next hexec
  · exact nomatch herr
  · exact nomatch herr
  · have h3 := (frame_take_of_eomAt heom).1
    have hy : t.slen + 3 = y.length := by
      rw [ht]
      exact Nat.sub_add_cancel h3
    rw [hy]
    refine ⟨fun n hn1 hn => ?_, ?_⟩
    · obtain ⟨d, r, e, hrun, hdet⟩ := runCommands_decodePasses hI hlen hbytes hslen hpos hn
      exact ⟨_, hrun, hdet hn1⟩
    · obtain ⟨r, hrun⟩ := runCommands_all_decodePasses hI hlen hbytes hslen hpos
      have hdec' : decryptStr { shownWith s y true r .none with slen := y.length - 3 } =
          .ok { t with res := r, err := .none } := decryptStr_setRes hmsg hdec r .none
      have hcrypt := exec_crypt_one_decrypt (s := { shownWith s y true r .none with slen := y.length - 3 }) hmsg
      rw [hdec', finish_ok] at hcrypt
      rw [runCommands_append_of_next hrun, runCommands_singleton, hcrypt]
      obtain rfl := ht
      exact ⟨_, rfl, rfl⟩

end Sys2Proof.Machine
end
